-- ==== Sys2Proof/Word.lean ====
section
/-! DEFINITION. The machine word (spec/00_scope.md rule R3): every memory word, operand, port value, the relative base and
every arithmetic result is a 64-bit two's-complement signed integer. Memory is word-addressed and holds whole words only
(spec/20_memory.md rules R40, R48). -/

namespace Sys2Proof

/-- R3: `XLEN = 64`. The signed value of a word `w` is `w.toInt`, in `-2^63 .. 2^63 - 1`; an unsigned register
(`PC`, `FPC`: R12, R17) is read as `w.toNat`. -/
abbrev Word := BitVec 64

end Sys2Proof
end

