-- ==== Sys2Proof/Syntax.lean ====
section
/-! DEFINITION. The instruction set as syntax: one constructor per row of spec/opcode_table.json (spec/30_encoding.md rule
R76). An instruction here is what `Decode` yields from the instruction word (R66): the opcode and the three mode digits.
Operand words are no part of it: the decoder does not inspect them (R74), they are fetched in the RESOLVE phase
(spec/40_step_fsm.md rule R97). A mode digit that belongs to no parameter of the opcode (R72) is kept as a field named
`x1`, `x2` or `x3`, so that no digit of a word is lost (log 15). -/

namespace Sys2Proof

/-- R62: the addressing modes. Digit 0 is Position, 1 Immediate, 2 Relative. -/
inductive Mode where
  | position
  | immediate
  | relative
  deriving DecidableEq, Repr

/-- R60, R76: whether a parameter yields a value (source) or an address (destination). -/
inductive ParamKind where
  | src
  | dst
  deriving DecidableEq, Repr

/-- R76: the ten instructions. `m1`, `m2`, `m3` are the mode digits of declared parameters, `x1`, `x2`, `x3` the ignored
mode digits of parameters the opcode does not have (R72). -/
inductive Instr where
  /-- ADD, opcode 1, format F3SSD (R111). -/
  | add (m1 m2 m3 : Mode)
  /-- MUL, opcode 2, format F3SSD (R112). -/
  | mul (m1 m2 m3 : Mode)
  /-- IN, opcode 3, format F1D (R120). -/
  | inp (m1 x2 x3 : Mode)
  /-- OUT, opcode 4, format F1S (R121). -/
  | out (m1 x2 x3 : Mode)
  /-- JT, opcode 5, format F2SS (R140). -/
  | jt (m1 m2 x3 : Mode)
  /-- JF, opcode 6, format F2SS (R141). -/
  | jf (m1 m2 x3 : Mode)
  /-- LT, opcode 7, format F3SSD (R150). -/
  | lt (m1 m2 m3 : Mode)
  /-- EQ, opcode 8, format F3SSD (R151). -/
  | eq (m1 m2 m3 : Mode)
  /-- ARB, opcode 9, format F1S (R160). -/
  | arb (m1 x2 x3 : Mode)
  /-- HALT, opcode 99, format F0 (R165). -/
  | halt (x1 x2 x3 : Mode)
  deriving DecidableEq, Repr

end Sys2Proof
end

