-- ==== Sys2Proof/WellFormed.lean ====
section
/-! DEFINITION. Which terms of `Instr` are instructions: a destination parameter never has Immediate mode
(spec/30_encoding.md rule R71). Every other constraint on an encoding is already in the types. -/

namespace Sys2Proof

/-- R71: Immediate is "valid only for source operands, never for a destination operand". The destination is parameter 3
of ADD, MUL, LT and EQ, and parameter 1 of IN. -/
def Instr.wellFormed : Instr → Bool
  | .add _ _ m3 => decide (m3 ≠ .immediate)
  | .mul _ _ m3 => decide (m3 ≠ .immediate)
  | .inp m1 _ _ => decide (m1 ≠ .immediate)
  | .out _ _ _ => true
  | .jt _ _ _ => true
  | .jf _ _ _ => true
  | .lt _ _ m3 => decide (m3 ≠ .immediate)
  | .eq _ _ m3 => decide (m3 ≠ .immediate)
  | .arb _ _ _ => true
  | .halt _ _ _ => true

/-- R71 as a proposition. -/
abbrev Instr.WellFormed (i : Instr) : Prop := i.wellFormed = true

end Sys2Proof
end

