-- ==== Sys2Proof/Decode.lean ====
section
/-! DEFINITION. The decimal decoder and the encoder (spec/30_encoding.md). `decode` is total on 64-bit words and rejects
by name; `encode` is written from the digits of rule R61 and the opcode map of rule R76. The structure of an
instruction that the decoder reads off the opcode (parameter kinds, length) is here too (R60, R74, R76). -/

namespace Sys2Proof

/-- R62: a mode digit; any digit outside {0, 1, 2} is no mode (R68). -/
def Mode.ofDigit (d : Nat) : Option Mode :=
  if d = 0 then some .position
  else if d = 1 then some .immediate
  else if d = 2 then some .relative
  else none

/-- R62: the digit of a mode. -/
def Mode.digit : Mode → Nat
  | .position => 0
  | .immediate => 1
  | .relative => 2

/-- Why a word is illegal. The reasons are the tests of R66; all lead to the same fault with the same recorded value, so
which of several reasons is named cannot be observed (R66). -/
inductive Illegal where
  /-- R69: `W < 0`. -/
  | negative
  /-- R70: a digit above the third mode digit is not 0. -/
  | highDigits
  /-- R68: a mode digit is not 0, 1 or 2. -/
  | modeDigit
  /-- R67: `W mod 100` is not in OPSET. -/
  | opcode
  /-- R71: a destination parameter has Immediate mode. -/
  | immediateDestination
  deriving DecidableEq, Repr

/-- R61: digit `k` of a non-negative word's value (R7). -/
def decimalDigit (n k : Nat) : Nat := (n / 10 ^ k) % 10

/-- R66, the tests on the opcode (R67) and on the destination's mode (R71); the opcode map is R76. -/
def decodeFields (opcode : Nat) (m1 m2 m3 : Mode) : Except Illegal Instr :=
  if opcode = 1 then (if m3 = .immediate then .error .immediateDestination else .ok (.add m1 m2 m3))
  else if opcode = 2 then (if m3 = .immediate then .error .immediateDestination else .ok (.mul m1 m2 m3))
  else if opcode = 3 then (if m1 = .immediate then .error .immediateDestination else .ok (.inp m1 m2 m3))
  else if opcode = 4 then .ok (.out m1 m2 m3)
  else if opcode = 5 then .ok (.jt m1 m2 m3)
  else if opcode = 6 then .ok (.jf m1 m2 m3)
  else if opcode = 7 then (if m3 = .immediate then .error .immediateDestination else .ok (.lt m1 m2 m3))
  else if opcode = 8 then (if m3 = .immediate then .error .immediateDestination else .ok (.eq m1 m2 m3))
  else if opcode = 9 then .ok (.arb m1 m2 m3)
  else if opcode = 99 then .ok (.halt m1 m2 m3)
  else .error .opcode

/-- R66 on the value of a non-negative word: the high digits (R70), the mode digits (R68), then `decodeFields`. -/
def decodeNat (n : Nat) : Except Illegal Instr :=
  if n / 100000 ≠ 0 then .error .highDigits
  else
    match Mode.ofDigit (decimalDigit n 2), Mode.ofDigit (decimalDigit n 3), Mode.ofDigit (decimalDigit n 4) with
    | some m1, some m2, some m3 => decodeFields (n % 100) m1 m2 m3
    | _, _, _ => .error .modeDigit

/-- R66: `Decode(W)`, a total function of the instruction word alone. -/
def decode (W : Word) : Except Illegal Instr :=
  if W.toInt < 0 then .error .negative else decodeNat W.toNat

/-- R76: the opcode number of an instruction. -/
def Instr.opcode : Instr → Nat
  | .add _ _ _ => 1
  | .mul _ _ _ => 2
  | .inp _ _ _ => 3
  | .out _ _ _ => 4
  | .jt _ _ _ => 5
  | .jf _ _ _ => 6
  | .lt _ _ _ => 7
  | .eq _ _ _ => 8
  | .arb _ _ _ => 9
  | .halt _ _ _ => 99

/-- R61: the mode in digit 2 of the instruction word. -/
def Instr.mode1 : Instr → Mode
  | .add m _ _ | .mul m _ _ | .inp m _ _ | .out m _ _ | .jt m _ _ => m
  | .jf m _ _ | .lt m _ _ | .eq m _ _ | .arb m _ _ | .halt m _ _ => m

/-- R61: the mode in digit 3 of the instruction word. -/
def Instr.mode2 : Instr → Mode
  | .add _ m _ | .mul _ m _ | .inp _ m _ | .out _ m _ | .jt _ m _ => m
  | .jf _ m _ | .lt _ m _ | .eq _ m _ | .arb _ m _ | .halt _ m _ => m

/-- R61: the mode in digit 4 of the instruction word. -/
def Instr.mode3 : Instr → Mode
  | .add _ _ m | .mul _ _ m | .inp _ _ m | .out _ _ m | .jt _ _ m => m
  | .jf _ _ m | .lt _ _ m | .eq _ _ m | .arb _ _ m | .halt _ _ m => m

/-- R60, R76: the kinds of the declared parameters, in order. -/
def Instr.params : Instr → List ParamKind
  | .add _ _ _ => [.src, .src, .dst]
  | .mul _ _ _ => [.src, .src, .dst]
  | .inp _ _ _ => [.dst]
  | .out _ _ _ => [.src]
  | .jt _ _ _ => [.src, .src]
  | .jf _ _ _ => [.src, .src]
  | .lt _ _ _ => [.src, .src, .dst]
  | .eq _ _ _ => [.src, .src, .dst]
  | .arb _ _ _ => [.src]
  | .halt _ _ _ => []

/-- R60, R76: the declared parameters of an instruction, in order, each with its kind and its mode digit. -/
def Instr.paramList (i : Instr) : List (ParamKind × Mode) := i.params.zip [i.mode1, i.mode2, i.mode3]

/-- R60, R76: which parameter of an instruction is its destination, with its mode. -/
def Instr.destination : Instr → Option (Nat × Mode)
  | .add _ _ m3 => some (3, m3)
  | .mul _ _ m3 => some (3, m3)
  | .inp m1 _ _ => some (1, m1)
  | .out _ _ _ => none
  | .jt _ _ _ => none
  | .jf _ _ _ => none
  | .lt _ _ m3 => some (3, m3)
  | .eq _ _ m3 => some (3, m3)
  | .arb _ _ _ => none
  | .halt _ _ _ => none

/-- R74: the length in words, told from the opcode alone. -/
def Instr.length : Instr → Nat
  | .add _ _ _ | .mul _ _ _ | .lt _ _ _ | .eq _ _ _ => 4
  | .jt _ _ _ | .jf _ _ _ => 3
  | .inp _ _ _ | .out _ _ _ | .arb _ _ _ => 2
  | .halt _ _ _ => 1

/-- R61: the instruction word whose digits are the opcode and the three mode digits. On a canonical term it is the word R85
writes; the ignored digits of another term are kept (log 15). -/
def encode (i : Instr) : Word :=
  BitVec.ofNat 64 (i.opcode + 100 * i.mode1.digit + 1000 * i.mode2.digit + 10000 * i.mode3.digit)

/-- R72, R85: the canonical form, in which the mode digits of parameters the opcode does not have are 0. -/
def Instr.canonical : Instr → Instr
  | .add m1 m2 m3 => .add m1 m2 m3
  | .mul m1 m2 m3 => .mul m1 m2 m3
  | .inp m1 _ _ => .inp m1 .position .position
  | .out m1 _ _ => .out m1 .position .position
  | .jt m1 m2 _ => .jt m1 m2 .position
  | .jf m1 m2 _ => .jf m1 m2 .position
  | .lt m1 m2 m3 => .lt m1 m2 m3
  | .eq m1 m2 m3 => .eq m1 m2 m3
  | .arb m1 _ _ => .arb m1 .position .position
  | .halt _ _ _ => .halt .position .position .position

/-- R60: an instruction in memory is its instruction word followed by its operand words. -/
def instrImage (i : Instr) (operands : List Word) : List Word := encode i :: operands

/-- The four 64-bit words of an instruction whose bits are `w`, numbered as spec/opcode_table.json numbers them: the first
word is bits 63..0, the second bits 127..64, and so on; every bit from `nbits` up is 0. Four words is the longest
instruction (R60). -/
def tableWords (nbits w : Nat) : List Word :=
  [0, 1, 2, 3].map fun k => BitVec.ofNat 64 (w % 2 ^ nbits / 2 ^ (64 * k))

/-- What the decoder reads from an instruction whose bits are `w`: `Decode` of its first word (R66); the operand words
are not inspected (R74). -/
def decodeTableWord (nbits w : Nat) : Option Instr :=
  match decode (BitVec.ofNat 64 (w % 2 ^ nbits)) with
  | .ok i => some i
  | .error _ => none

end Sys2Proof
end

