-- ==== Sys2Proof/Config.lean ====
section
/-! DEFINITION. The open parameters of the hardware (spec/00_scope.md rules R4, R5; spec/92_eei_decisions.md D3, D17).
They are fixed for one machine and no step or host operation changes them. The model takes them as data: every state
carries its configuration, so every statement about every state is about every setting (log 1). -/

namespace Sys2Proof

/-- R5: the capacity of a port buffer, a positive integer or `INF`. -/
inductive Depth where
  | finite (n : Nat)
  | inf
  deriving DecidableEq, Repr

/-- R4, R5: the parameters `MEM_CAP`, `IN_DEPTH` and `OUT_DEPTH`. -/
structure Config where
  memCap   : Nat
  inDepth  : Depth
  outDepth : Depth
  deriving DecidableEq, Repr

/-- R5: a depth is a positive integer or `INF`. -/
def Depth.positive : Depth → Bool
  | .finite n => decide (0 < n)
  | .inf => true

/-- The domain of the parameters: `1 <= MEM_CAP <= 2^63` (R4) and positive depths (R5). -/
def Config.wf (c : Config) : Bool :=
  decide (1 ≤ c.memCap) && decide (c.memCap ≤ 2 ^ 63) && c.inDepth.positive && c.outDepth.positive

/-- R4, R5: the reference setting, `MEM_CAP = 2^63` and both depths `INF`. -/
def Config.reference : Config :=
  { memCap := 2 ^ 63, inDepth := .inf, outDepth := .inf }

end Sys2Proof
end

