-- ==== Sys2Proof/Machine/State.lean ====
section
/-! DEFINITION. The state of one core (spec/10_state.md sections 1, 2 and 5), plain data; the fault events of
spec/60_exceptions.md rule R170; the result type of a phase of the step (spec/40_step_fsm.md rule R91); the host's Fault and
Refusal types; and the state after reset. -/

namespace Sys2Proof.Machine

/-- R11: the cells of the tape that do not hold 0, as (word address, word) pairs. A cell that is not listed holds 0
(R11, R35). The canonical form is `Memory.wf`. Cells are whole 64-bit words, never bytes (R48; log 2). -/
abbrev Memory := List (Nat × Word)

/-- R20: a FIFO is a finite sequence of words, the oldest first. -/
abbrev Fifo := List Word

/-- R14: the executor state. -/
inductive ExecState where
  | idle
  | running
  | awaitInput
  | awaitOutput
  | halted
  | faulted
  deriving DecidableEq, Repr

/-- R15: the halt cause. -/
inductive HaltCause where
  | none
  | haltInstruction
  | inputClosed
  deriving DecidableEq, Repr

/-- R16: the fault cause. -/
inductive FaultCause where
  | none
  | decodeFault
  | addressFault
  | capacityFault
  deriving DecidableEq, Repr

/-- The state of one core. `cfg` is not state of the core: it holds the parameters of R4 and R5, which nothing changes
(log 1). -/
structure State where
  /-- R4, R5: `MEM_CAP`, `IN_DEPTH`, `OUT_DEPTH`. -/
  cfg : Config
  /-- R11: `MEM`. -/
  mem : Memory
  /-- R11, R42: `LEN`, the current length of the tape (log 10). -/
  len : Nat
  /-- R12: `PC`, unsigned. -/
  pc : Word
  /-- R13: `RB`, signed. -/
  rb : Word
  /-- R14: `ST`. -/
  st : ExecState
  /-- R15: `HCAUSE`. -/
  hcause : HaltCause
  /-- R16: `FCAUSE`. -/
  fcause : FaultCause
  /-- R17: `FPC`, unsigned. -/
  fpc : Word
  /-- R17: `FVAL`, signed. -/
  fval : Word
  /-- R21: `IN_FIFO`. -/
  inFifo : Fifo
  /-- R21, R18 bit 0: `IN_CLOSED`. -/
  inClosed : Bool
  /-- R22: `OUT_FIFO`. -/
  outFifo : Fifo
  /-- R22, R18 bit 1: `OUT_CLOSED`. -/
  outClosed : Bool
  /-- R22, R18 bit 2: `OUT_EOS`. -/
  outEos : Bool
  /-- R18 bit 3, R125: `OUT_DROP`. -/
  outDrop : Bool
  /-- R23: `OUT_LOG`, the history of emitted values. -/
  outLog : List Word
  deriving DecidableEq, Repr

/-- R170: what a `raise F(info)` of the spec raises. An address is a mathematical integer, possibly outside 64 bits
(R17, R43). -/
inductive Raised where
  /-- R171: the fetched instruction word is illegal. -/
  | decodeFault (W : Word)
  /-- R172: a negative address, or a negative target of a taken jump. -/
  | addressFault (a : Int)
  /-- R173: an address at or beyond `MEM_CAP`. -/
  | capacityFault (a : Int)
  deriving DecidableEq, Repr

/-- R91: a phase of a step either yields a value and the state it leaves, or raises a fault, with the state at the raise
(which keeps the growth of `LEN` made so far: R100). -/
inductive Phase (α : Type) where
  | ok (v : α) (s : State)
  | raised (f : Raised) (s : State)
  deriving DecidableEq, Repr

/-- The faults that stop the model: none, so this type has no constructor. The three faults of the spec are terminal
states of the machine and are taken (R100, R176): the step that raises one answers the next state, in `ST = FAULTED`
(log 3). -/
inductive Fault where
  deriving DecidableEq, Repr

/-- The refusals of the model: only the form the host fixes for an instruction without a meaning. Every instruction has
its meaning, so nothing raises it. It would be safe: a refused step proves nothing about the machine. -/
inductive Refusal where
  /-- Raised by no arm of `exec`. -/
  | notModelled (mnemonic : String)
  deriving DecidableEq, Repr

/-- R35, R200: the state `H_RESET` leaves, for a given setting of the parameters. -/
def State.resetWith (c : Config) : State :=
  { cfg := c
    mem := []
    len := 0
    pc := 0
    rb := 0
    st := .idle
    hcause := .none
    fcause := .none
    fpc := 0
    fval := 0
    inFifo := []
    inClosed := false
    outFifo := []
    outClosed := false
    outEos := false
    outDrop := false
    outLog := [] }

/-- R35: the state after reset, with the parameters at the reference setting (R4, R5; log 1). -/
def State.reset : State := State.resetWith Config.reference

end Sys2Proof.Machine
end

