-- ==== Sys2Proof/Machine/Ops.lean ====
section
/-! DEFINITION. The named operations over memory, registers and FIFOs that every rule of the spec uses
(spec/20_memory.md section 2, spec/00_scope.md rule R8), taking a fault (spec/40_step_fsm.md rule R100) and entering HALTED
(spec/42_io_ports.md rule R127). -/

namespace Sys2Proof.Machine

/-- R8: `wrap64(z)`, the word congruent to `z` modulo `2^64`. -/
def wrap64 (z : Int) : Word := BitVec.ofInt 64 z

/-! ### Raw cells (R11, R42): no check, no growth -/

/-- The canonical form of a memory: addresses strictly rising, no listed word 0 (R11: an unlisted cell holds 0). -/
abbrev Memory.wf (m : Memory) : Prop :=
  m.Pairwise (fun c d => c.1 < d.1) ∧ ∀ c ∈ m, c.2 ≠ 0

/-- R8: `MEM[a]`, the raw cell; an unlisted cell holds 0 (R11, R42). -/
def Memory.get : Memory → Nat → Word
  | [], _ => 0
  | (k, w) :: r, a => if k = a then w else Memory.get r a

/-- The memory with no entry for `a`, so that `a` reads 0. -/
def Memory.erase : Memory → Nat → Memory
  | [], _ => []
  | (k, w) :: r, a => if k = a then Memory.erase r a else (k, w) :: Memory.erase r a

/-- The entry `(a, v)` put before the first greater address. -/
def Memory.insert : Memory → Nat → Word → Memory
  | [], a, v => [(a, v)]
  | (k, w) :: r, a, v => if a < k then (a, v) :: (k, w) :: r else (k, w) :: Memory.insert r a v

/-- R8: `MEM[a] <- v`, keeping the canonical form: writing 0 removes the entry. -/
def Memory.set (m : Memory) (a : Nat) (v : Word) : Memory :=
  if v = 0 then Memory.erase m a else Memory.insert (Memory.erase m a) a v

/-- R203: the memory that holds the words `ws` at addresses `a, a+1, ...` and 0 elsewhere. -/
def Memory.ofImage : Nat → List Word → Memory
  | _, [] => []
  | a, w :: ws => if w = 0 then Memory.ofImage (a + 1) ws else (a, w) :: Memory.ofImage (a + 1) ws

/-- R8: the raw cell at `a`. -/
def State.peek (s : State) (a : Nat) : Word := Memory.get s.mem a

/-- R44, D4: growth so that the valid address `a` is on the tape, `LEN <- max(LEN, a + 1)`. -/
def State.grow (s : State) (a : Nat) : State := { s with len := max s.len (a + 1) }

/-- R46 after its check: growth, then `MEM[a] <- v`. -/
def State.store (s : State) (a : Nat) (v : Word) : State :=
  { s with mem := Memory.set s.mem a v, len := max s.len (a + 1) }

/-! ### Phases (R91) -/

/-- The next phase, run on the value and the state of the one before it; a raise ends the step (R91). -/
def Phase.andThen {α β : Type} (p : Phase α) (k : α → State → Phase β) : Phase β :=
  match p with
  | .ok v s => k v s
  | .raised f s => .raised f s

/-- R43: `CheckAddr(a)` for a mathematical integer `a`: negative raises AddressFault, `a >= MEM_CAP` raises CapacityFault,
anything else is a valid address. -/
def checkAddr (cap : Nat) (a : Int) : Except Raised Nat :=
  if a < 0 then .error (.addressFault a)
  else if (cap : Int) ≤ a then .error (.capacityFault a)
  else .ok a.toNat

/-- R45: `MemRead(a, 1)`: the check, the growth, the cell. -/
def memRead (a : Int) (s : State) : Phase Word :=
  match checkAddr s.cfg.memCap a with
  | .error f => .raised f s
  | .ok n => .ok (s.peek n) (s.grow n)

/-- R46: `MemWrite(a, 1, v)`: the check, the growth, the store. -/
def memWrite (a : Int) (v : Word) (s : State) : Phase Unit :=
  match checkAddr s.cfg.memCap a with
  | .error f => .raised f s
  | .ok n => .ok () (s.store n v)

/-! ### FIFOs (R20) -/

/-- R20: `push(Q, v)` appends at the tail. -/
def Fifo.push (q : Fifo) (v : Word) : Fifo := q ++ [v]

/-- R5, R28, R121: whether a buffer of this capacity can take one more word. -/
def Depth.hasRoom (d : Depth) (q : Fifo) : Bool :=
  match d with
  | .finite n => decide (q.length < n)
  | .inf => true

/-- R34 (c): whether a buffer's contents respect its capacity. -/
def Depth.holds (d : Depth) (q : Fifo) : Bool :=
  match d with
  | .finite n => decide (q.length ≤ n)
  | .inf => true

/-! ### Faults, halts, holds and completion -/

/-- R16, R170: the cause code a fault records. -/
def Raised.cause : Raised → FaultCause
  | .decodeFault _ => .decodeFault
  | .addressFault _ => .addressFault
  | .capacityFault _ => .capacityFault

/-- R17, R170: the value a fault reports: the instruction word, or the offending address. -/
def Raised.info : Raised → Int
  | .decodeFault W => W.toInt
  | .addressFault a => a
  | .capacityFault a => a

/-- R100, R176: TAKING A FAULT. `ST`, `FCAUSE`, `FPC` and `FVAL` are written and nothing else changes; `OUT_EOS` stays as it
is. There is no handler and no return: only `H_RESET` leaves FAULTED (R178; `HostOp.effect .reset`). -/
def takeFault (f : Raised) (s : State) : State :=
  { s with st := .faulted, fcause := f.cause, fpc := s.pc, fval := wrap64 f.info }

/-- R127, R165, R120: entry to HALTED: the cause is recorded and the end-of-stream marker is set; `PC` is unchanged. -/
def State.enterHalted (s : State) (c : HaltCause) : State :=
  { s with st := .halted, hcause := c, outEos := true }

/-- R92: a hold: only `ST` changes (`LEN` keeps the growth already made). -/
def State.hold (s : State) (sub : ExecState) : State := { s with st := sub }

/-- R99, R102: completion of an instruction of `n` words: `PC <- PC + n; ST <- RUNNING`. -/
def State.complete (s : State) (n : Nat) : State :=
  { s with pc := s.pc + BitVec.ofNat 64 n, st := .running }

/-- R142, R102: a taken jump: `PC <- b; ST <- RUNNING`. -/
def State.jumpTo (s : State) (b : Word) : State := { s with pc := b, st := .running }

/-- R160: `RB <- wrap64(RB + a)`. -/
def State.adjustBase (s : State) (a : Word) : State :=
  { s with rb := wrap64 (s.rb.toInt + a.toInt) }

/-- R98: WRITEBACK and ADVANCE of an instruction of `n` words with a destination:
`MemWrite(dest, 1, v); PC <- PC + n; ST <- RUNNING`. -/
def writeBack (n : Nat) (dest : Int) (v : Word) (s : State) : Phase Unit :=
  (memWrite dest v s).andThen fun _ s => .ok () (s.complete n)

/-- R91, R100: the end of a step: its last state, or the fault it raised, taken. -/
def finish (p : Phase Unit) : Host.Outcome State Fault Refusal :=
  match p with
  | .ok _ s => .next s
  | .raised f s => .next (takeFault f s)

end Sys2Proof.Machine
end

