-- ==== Sys2Proof/Machine/Operands.lean ====
section
/-! DEFINITION. The RESOLVE phase: the addressing modes (spec/40_step_fsm.md rules R95, R96) and the order in which an
instruction's parameters are fetched and resolved (R97). -/

namespace Sys2Proof.Machine

/-- R95, R96: the effective address of an operand word in Position or Relative mode, an exact integer (R43). An operand in
Immediate mode has none. -/
def effAddr (m : Mode) (p rb : Word) : Option Int :=
  match m with
  | .position => some p.toInt
  | .immediate => none
  | .relative => some (p.toInt + rb.toInt)

/-- R95: `ResolveSrc(m, P)`, the value of a source parameter. -/
def resolveSrc (m : Mode) (p : Word) (s : State) : Phase Word :=
  match effAddr m p s.rb with
  | none => .ok p s
  | some a => memRead a s

/-- R96: `ResolveDst(m, P)`, the checked address of a destination parameter; nothing is read and nothing grows. Immediate
mode cannot occur here: `Decode` made it illegal (R71). The arm keeps the function total by raising the DecodeFault of such
a word (log 8). -/
def resolveDst (m : Mode) (p : Word) (s : State) : Phase Nat :=
  match effAddr m p s.rb with
  | none => .raised (.decodeFault (s.peek s.pc.toNat)) s
  | some d =>
    match checkAddr s.cfg.memCap d with
    | .error f => .raised f s
    | .ok n => .ok n s

/-- R97: the operand word of parameter `i`, `MemRead(PC + i, 1)` with `PC + i` exact. -/
def fetchOperand (i : Nat) (s : State) : Phase Word := memRead (s.pc.toNat + i : Nat) s

/-- R97: source parameter `i`: fetch its operand word, then resolve it. -/
def srcParam (i : Nat) (m : Mode) (s : State) : Phase Word :=
  (fetchOperand i s).andThen fun p s => resolveSrc m p s

/-- R97: destination parameter `i`: fetch its operand word, then resolve it. -/
def dstParam (i : Nat) (m : Mode) (s : State) : Phase Nat :=
  (fetchOperand i s).andThen fun p s => resolveDst m p s

/-- R97, format F2SS: two sources, in order. -/
def resolveSS (m1 m2 : Mode) (s : State) : Phase (Word × Word) :=
  (srcParam 1 m1 s).andThen fun a s =>
    (srcParam 2 m2 s).andThen fun b s => .ok (a, b) s

/-- R97, format F3SSD: two sources and a destination, in order. -/
def resolveSSD (m1 m2 m3 : Mode) (s : State) : Phase (Word × Word × Nat) :=
  (resolveSS m1 m2 s).andThen fun ab s =>
    (dstParam 3 m3 s).andThen fun d s => .ok (ab.1, ab.2, d) s

/-- The shape of ADD, MUL, LT and EQ (R102): resolve two sources and a destination, store a function of the two values,
advance by 4. -/
def storeResult (f : Word → Word → Word) (m1 m2 m3 : Mode) (s : State) : Host.Outcome State Fault Refusal :=
  finish ((resolveSSD m1 m2 m3 s).andThen fun r s => writeBack 4 r.2.2 (f r.1 r.2.1) s)

/-- The shape of JT and JF (R102, R142): both parameters are resolved whether or not the jump is taken; a taken jump to a
negative target raises AddressFault; otherwise advance by 3. -/
def condJump (taken : Word → Bool) (m1 m2 : Mode) (s : State) : Host.Outcome State Fault Refusal :=
  finish ((resolveSS m1 m2 s).andThen fun ab s =>
    if taken ab.1 then
      if ab.2.toInt < 0 then .raised (.addressFault ab.2.toInt) s else .ok () (s.jumpTo ab.2)
    else .ok () (s.complete 3))

end Sys2Proof.Machine
end

