-- ==== Sys2Proof/Machine/Arithmetic.lean ====
section
/-! DEFINITION. ADD and MUL (spec/41_arithmetic.md). -/

namespace Sys2Proof.Machine

/-- R110: the exact sum, its low 64 bits kept. -/
def wrapAdd (a b : Word) : Word := wrap64 (a.toInt + b.toInt)

/-- R110: the exact signed product, its low 64 bits kept. -/
def wrapMul (a b : Word) : Word := wrap64 (a.toInt * b.toInt)

/-- R111: ADD, `MemWrite(dest, 1, wrap64(a + b)); PC <- PC + 4`. -/
def execAdd (m1 m2 m3 : Mode) (s : State) : Host.Outcome State Fault Refusal :=
  storeResult wrapAdd m1 m2 m3 s

/-- R112: MUL, `MemWrite(dest, 1, wrap64(a * b)); PC <- PC + 4`. -/
def execMul (m1 m2 m3 : Mode) (s : State) : Host.Outcome State Fault Refusal :=
  storeResult wrapMul m1 m2 m3 s

end Sys2Proof.Machine
end

