-- ==== Sys2Proof/Machine/Compare.lean ====
section
/-! DEFINITION. LT and EQ (spec/44_compare.md). -/

namespace Sys2Proof.Machine

/-- R150: 1 if `a < b` on the signed values, else 0. -/
def lessThan (a b : Word) : Word := if a.toInt < b.toInt then 1 else 0

/-- R151: 1 if all 64 bits are equal, else 0. -/
def equalWords (a b : Word) : Word := if a = b then 1 else 0

/-- R150: LT, `MemWrite(dest, 1, (a < b) ? 1 : 0); PC <- PC + 4`. -/
def execLt (m1 m2 m3 : Mode) (s : State) : Host.Outcome State Fault Refusal :=
  storeResult lessThan m1 m2 m3 s

/-- R151: EQ, `MemWrite(dest, 1, (a = b) ? 1 : 0); PC <- PC + 4`. -/
def execEq (m1 m2 m3 : Mode) (s : State) : Host.Outcome State Fault Refusal :=
  storeResult equalWords m1 m2 m3 s

end Sys2Proof.Machine
end

