-- ==== Sys2Proof/Machine/Halt.lean ====
section
/-! DEFINITION. HALT (spec/46_halt.md). -/

namespace Sys2Proof.Machine

/-- R165: HALT, `ST <- HALTED; HCAUSE <- 1; OUT_EOS <- 1`; nothing else changes and no operand word is fetched. -/
def execHalt (s : State) : Host.Outcome State Fault Refusal :=
  .next (s.enterHalted .haltInstruction)

end Sys2Proof.Machine
end

