-- ==== Sys2Proof/Machine/Jumps.lean ====
section
/-! DEFINITION. JT and JF (spec/43_jumps.md). -/

namespace Sys2Proof.Machine

/-- R140: JT jumps when `a != 0`. -/
def execJt (m1 m2 : Mode) (s : State) : Host.Outcome State Fault Refusal :=
  condJump (fun a => decide (a ≠ 0)) m1 m2 s

/-- R141: JF jumps when `a = 0`. -/
def execJf (m1 m2 : Mode) (s : State) : Host.Outcome State Fault Refusal :=
  condJump (fun a => decide (a = 0)) m1 m2 s

end Sys2Proof.Machine
end

