-- ==== Sys2Proof/Machine/Ports.lean ====
section
/-! DEFINITION. IN and OUT (spec/42_io_ports.md). -/

namespace Sys2Proof.Machine

/-- R120: the receive into the checked address `d`: pop and store, or halt on an empty closed port, or hold. -/
def receive (d : Nat) (s : State) : Phase Unit :=
  match s.inFifo with
  | x :: q => writeBack 2 d x { s with inFifo := q }
  | [] => if s.inClosed then .ok () (s.enterHalted .inputClosed) else .ok () (s.hold .awaitInput)

/-- R121: the best-effort send of `a`: drop on a closed port, push when there is room, or hold. -/
def send (a : Word) (s : State) : State :=
  if s.outClosed then
    ({ s with outLog := s.outLog ++ [a], outDrop := true } : State).complete 2
  else if Depth.hasRoom s.cfg.outDepth s.outFifo then
    ({ s with outLog := s.outLog ++ [a], outFifo := Fifo.push s.outFifo a } : State).complete 2
  else s.hold .awaitOutput

/-- R120: IN. The destination is resolved and checked before the port is looked at (R96). -/
def execIn (m1 : Mode) (s : State) : Host.Outcome State Fault Refusal :=
  finish ((dstParam 1 m1 s).andThen receive)

/-- R121: OUT. -/
def execOut (m1 : Mode) (s : State) : Host.Outcome State Fault Refusal :=
  finish ((srcParam 1 m1 s).andThen fun a s => .ok () (send a s))

end Sys2Proof.Machine
end

