-- ==== Sys2Proof/Machine/RelBase.lean ====
section
/-! DEFINITION. ARB (spec/45_relbase.md). -/

namespace Sys2Proof.Machine

/-- R160: ARB, `RB <- wrap64(RB + a); PC <- PC + 2`; a Relative source is resolved with the old `RB`. -/
def execArb (m1 : Mode) (s : State) : Host.Outcome State Fault Refusal :=
  finish ((srcParam 1 m1 s).andThen fun a s => .ok () ((s.adjustBase a).complete 2))

end Sys2Proof.Machine
end

