-- ==== Sys2Proof/Machine/Dispatch.lean ====
section
/-! DEFINITION. EXECUTE's dispatch (spec/40_step_fsm.md rule R102): one arm per constructor of `Instr`. The state is the one
FETCH left. Ignored mode digits (spec/30_encoding.md rule R72) are not passed on. -/

namespace Sys2Proof.Machine

def exec (i : Instr) (s : State) : Host.Outcome State Fault Refusal :=
  match i with
  | .add m1 m2 m3 => Sys2Proof.Machine.execAdd m1 m2 m3 s
  | .mul m1 m2 m3 => Sys2Proof.Machine.execMul m1 m2 m3 s
  | .inp m1 _ _ => Sys2Proof.Machine.execIn m1 s
  | .out m1 _ _ => Sys2Proof.Machine.execOut m1 s
  | .jt m1 m2 _ => Sys2Proof.Machine.execJt m1 m2 s
  | .jf m1 m2 _ => Sys2Proof.Machine.execJf m1 m2 s
  | .lt m1 m2 m3 => Sys2Proof.Machine.execLt m1 m2 m3 s
  | .eq m1 m2 m3 => Sys2Proof.Machine.execEq m1 m2 m3 s
  | .arb m1 _ _ => Sys2Proof.Machine.execArb m1 s
  | .halt _ _ _ => Sys2Proof.Machine.execHalt s

end Sys2Proof.Machine
end

