-- ==== Sys2Proof/Machine/Flags.lean ====
section
/-! DEFINITION. What the host can read of a core's status (spec/10_state.md rules R14 to R18, R32, R33). There are no
condition codes (R19): no instruction reads or writes any of this but the bits of State it shows. -/

namespace Sys2Proof.Machine

/-- R14: the numeric encoding of `ST`. -/
def ExecState.code : ExecState → BitVec 3
  | .idle => 0
  | .running => 1
  | .awaitInput => 2
  | .awaitOutput => 3
  | .halted => 4
  | .faulted => 5

/-- R15: the numeric encoding of `HCAUSE`. -/
def HaltCause.code : HaltCause → BitVec 2
  | .none => 0
  | .haltInstruction => 1
  | .inputClosed => 2

/-- R16: the numeric encoding of `FCAUSE`. -/
def FaultCause.code : FaultCause → BitVec 2
  | .none => 0
  | .decodeFault => 1
  | .addressFault => 2
  | .capacityFault => 3

/-- R90: the states in which the core takes a step. -/
def ExecState.steps : ExecState → Bool
  | .running | .awaitInput | .awaitOutput => true
  | .idle | .halted | .faulted => false

/-- R178, R207: the terminal states. -/
def ExecState.terminal : ExecState → Bool
  | .halted | .faulted => true
  | .idle | .running | .awaitInput | .awaitOutput => false

/-- R18 bit 4, R33 `NeedInput`: `ST = AWAIT_INPUT`. -/
def State.needInput (s : State) : Bool := decide (s.st = .awaitInput)

/-- R18: the status word `FLAGS`; bits 63 to 7 read as 0. -/
def State.flags (s : State) : Word :=
  BitVec.ofNat 64
    (s.inClosed.toNat + 2 * s.outClosed.toNat + 4 * s.outEos.toNat + 8 * s.outDrop.toNat
      + 16 * s.needInput.toNat + 32 * s.inFifo.isEmpty.toNat + 64 * s.outFifo.isEmpty.toNat)

/-- R33 `Value(n)`: `H_POP_OUT` is enabled and would return `n`. -/
def State.valueReady (s : State) : Option Word :=
  if s.outClosed then none else s.outFifo.head?

/-- R33, R127 `Finished`: `OUT_EOS = 1` and the output buffer is empty. -/
def State.finished (s : State) : Bool := s.outEos && s.outFifo.isEmpty

/-- R207: a run of one core is over. -/
def State.isOver (s : State) : Bool := s.st.terminal

/-- R208: the final program contents, `MEM[0 .. LEN - 1]`. -/
def State.tape (s : State) : List Word := (List.range s.len).map s.peek

/-- R32: the registers the host may read at any time. -/
structure Status where
  st     : BitVec 3
  hcause : BitVec 2
  fcause : BitVec 2
  fpc    : Word
  fval   : Word
  flags  : Word
  pc     : Word
  rb     : Word
  len    : Nat
  deriving DecidableEq, Repr

/-- R32: the status readout; it has no effect on the state. -/
def State.status (s : State) : Status :=
  { st := s.st.code
    hcause := s.hcause.code
    fcause := s.fcause.code
    fpc := s.fpc
    fval := s.fval
    flags := s.flags
    pc := s.pc
    rb := s.rb
    len := s.len }

end Sys2Proof.Machine
end

