-- ==== Sys2Proof/Machine/Fetch.lean ====
section
/-! DEFINITION. FETCH and DECODE (spec/40_step_fsm.md rules R93, R94), and placing an instruction where the next fetch finds
it (for `State.withFetchWord`). -/

namespace Sys2Proof.Machine

/-- R93: `W <- MemRead(PC, 1)`. -/
def fetch (s : State) : Phase Word := memRead (s.pc.toNat : Nat) s

/-- R94: `Decode(W)`; an illegal word raises DecodeFault before any operand word is read. -/
def decodePhase (W : Word) (s : State) : Phase Instr :=
  match decode W with
  | .ok i => .ok i s
  | .error _ => .raised (.decodeFault W) s

/-- R93, R94: FETCH, then DECODE. -/
def fetchDecode (s : State) : Phase Instr := (fetch s).andThen decodePhase

/-- The words `ws` stored raw at `a, a+1, ...`, the tape grown over them. -/
def placeWords : Nat → List Word → State → State
  | _, [], s => s
  | a, w :: ws, s => placeWords (a + 1) ws (s.store a w)

/-- The four words of an instruction stored at `PC .. PC + 3` and the core put in RUNNING: what loading and starting
(R203, R204) leave for the very next step (log 6). -/
def placeInstr (s : State) (nbits w : Nat) : State :=
  { placeWords s.pc.toNat (tableWords nbits w) s with st := .running }

end Sys2Proof.Machine
end

