-- ==== Sys2Proof/Machine/Step.lean ====
section
/-! DEFINITION. The step of the core (spec/40_step_fsm.md rules R90, R102). -/

namespace Sys2Proof.Machine

/-- R102: one step: FETCH, DECODE, then the decoded instruction. R90: in IDLE, HALTED and FAULTED the core takes no step
and changes nothing (log 4). -/
def step (s : State) : Host.Outcome State Fault Refusal :=
  if s.st.steps then
    match fetchDecode s with
    | .ok i s' => exec i s'
    | .raised f s' => .next (takeFault f s')
  else .next s

/-- `s` with the instruction whose bits are `w` (every bit from `nbits` up 0) where the next step fetches, and the core
running (log 6). -/
def State.withFetchWord (s : State) (nbits w : Nat) : State := placeInstr s nbits w

end Sys2Proof.Machine
end

