-- ==== Sys2Proof/Machine/HostOps.lean ====
section
/-! DEFINITION. The host's operations on a core: the controller, the input producer and the output consumer
(spec/10_state.md section 3, rules R25 to R32), loading and starting a program and the launch state
(spec/70_reset_and_hazards.md rules R200, R203 to R205). Each operation is atomic with respect to a core step
(spec/40_step_fsm.md rule R101): it is an action of its own, beside `step` (log 7). -/

namespace Sys2Proof.Machine

/-- R25 to R32: the eight operations. -/
inductive HostOp where
  /-- R25, R200: `H_RESET`. -/
  | reset
  /-- R26, R203: `H_LOAD(v)`. -/
  | load (v : Word)
  /-- R27, R204: `H_START`. -/
  | start
  /-- R28: `H_PUSH_IN(v)`. -/
  | pushIn (v : Word)
  /-- R29: `H_CLOSE_IN`. -/
  | closeIn
  /-- R30: `H_POP_OUT`. -/
  | popOut
  /-- R31: `H_CLOSE_OUT`. -/
  | closeOut
  /-- R32: `H_READ_MEM(a)`, for any integer `a`. -/
  | readMem (a : Int)
  deriving DecidableEq, Repr

/-- What an operation answers the host: it was refused, it was done, or it was done and returned a word. -/
inductive Reply where
  | refused
  | done
  | value (v : Word)
  deriving DecidableEq, Repr

/-- R25 to R32: the enabling conditions. -/
def HostOp.enabled (op : HostOp) (s : State) : Bool :=
  match op with
  | .reset => true
  | .load _ => decide (s.st = .idle) && decide (s.len < s.cfg.memCap)
  | .start => decide (s.st = .idle)
  | .pushIn _ => !s.inClosed && Depth.hasRoom s.cfg.inDepth s.inFifo
  | .closeIn => !s.inClosed
  | .popOut => !s.outClosed && !s.outFifo.isEmpty
  | .closeOut => !s.outClosed
  | .readMem a => !s.st.steps && decide (0 ≤ a) && decide (a < (s.len : Int))

/-- R25 to R32: the effect of an enabled operation. -/
def HostOp.effect (op : HostOp) (s : State) : State :=
  match op with
  | .reset => State.resetWith s.cfg
  | .load v => s.store s.len v
  | .start => { s with st := .running }
  | .pushIn v => { s with inFifo := Fifo.push s.inFifo v }
  | .closeIn => { s with inClosed := true }
  | .popOut => { s with outFifo := s.outFifo.tail }
  | .closeOut => { s with outClosed := true }
  | .readMem _ => s

/-- R30, R32: what an enabled operation returns. -/
def HostOp.reply (op : HostOp) (s : State) : Reply :=
  match op with
  | .popOut =>
    match s.outFifo with
    | v :: _ => .value v
    | [] => .done
  | .readMem a => .value (s.peek a.toNat)
  | .reset | .load _ | .start | .pushIn _ | .closeIn | .closeOut => .done

/-- Section 3 of 10_state.md: an enabled operation has its effect and its reply; a disabled one is refused and changes
nothing (U12). -/
def hostOp (op : HostOp) (s : State) : State × Reply :=
  if op.enabled s then (op.effect s, op.reply s) else (s, .refused)

/-- R203: a program image loaded by `H_LOAD(p0)`, `H_LOAD(p1)`, ... in order. -/
def loadImage (ws : List Word) (s : State) : State :=
  ws.foldl (fun s w => (hostOp (.load w) s).1) s

/-- R28, R205: input words supplied by `H_PUSH_IN`, in order. -/
def pushInputs (ws : List Word) (s : State) : State :=
  ws.foldl (fun s w => (hostOp (.pushIn w) s).1) s

/-- R205: `Init(P, I)` and, with `closed`, `Init(P, I, closed)`: the state after reset, load of `P` and start, the producer
having pushed `I` (and closed). -/
def State.launch (c : Config) (P I : List Word) (closed : Bool) : State :=
  { State.resetWith c with
    st := .running
    mem := Memory.ofImage 0 P
    len := P.length
    inFifo := I
    inClosed := closed }

end Sys2Proof.Machine
end

