-- ==== Sys2Proof/Machine/System.lean ====
section
/-! DEFINITION. Several cores and the links between their ports (spec/60_exceptions.md rules R190 to R195). The harness as
software is out of scope (spec/00_scope.md rule R2); what a link does at the ports is specified and modelled. A schedule is
a list of moves: plain data that says which agent moves next (log 12). -/

namespace Sys2Proof.Machine

/-- R191: a link from the output port of core `src` to the input port of core `dst`, as positions in the list of cores. -/
structure Link where
  src : Nat
  dst : Nat
  deriving DecidableEq, Repr

/-- R190: any number of cores, each a complete copy of the state, and the links of a topology (R192). -/
structure System where
  cores : List State
  links : List Link
  deriving DecidableEq, Repr

/-- The moves of a system: a step of one core (R190), a host operation on one core, and a link's two moves (R191). Links are
named by their position. -/
inductive Move where
  | coreStep (i : Nat)
  | host (i : Nat) (op : HostOp)
  | transfer (k : Nat)
  | close (k : Nat)
  deriving DecidableEq, Repr

/-- R102 as a function of states: the state after one step. A step always answers a next state. -/
def stepState (s : State) : State :=
  match step s with
  | .next t => t
  | .fault _ => s
  | .refused _ => s

/-- One core of the system changed. -/
def System.updateCore (y : System) (i : Nat) (f : State → State) : System :=
  { y with cores := y.cores.modify i f }

/-- R191: *Transfer* is enabled when `H_POP_OUT` is enabled on the source and `H_PUSH_IN` on the destination; it is then the
word to move. -/
def System.transferWord (y : System) (l : Link) : Option Word :=
  match y.cores[l.src]?, y.cores[l.dst]? with
  | some a, some b =>
    match a.outFifo with
    | v :: _ => if HostOp.enabled .popOut a && HostOp.enabled (.pushIn v) b then some v else none
    | [] => none
  | _, _ => none

/-- R191: *Close* is enabled when the source's end-of-stream marker has been reached and the destination's input is open. -/
def System.closeEnabled (y : System) (l : Link) : Bool :=
  match y.cores[l.src]?, y.cores[l.dst]? with
  | some a, some b => a.outEos && a.outFifo.isEmpty && !b.inClosed
  | _, _ => false

/-- R190, R191: the effect of a move; a move that is not enabled changes nothing. A transfer pops and pushes the same word
in one move. -/
def System.move (y : System) (m : Move) : System :=
  match m with
  | .coreStep i => y.updateCore i stepState
  | .host i op => y.updateCore i (fun s => (hostOp op s).1)
  | .transfer k =>
    match y.links[k]? with
    | some l =>
      match y.transferWord l with
      | some v => (y.updateCore l.src (HostOp.effect .popOut)).updateCore l.dst (HostOp.effect (.pushIn v))
      | none => y
    | none => y
  | .close k =>
    match y.links[k]? with
    | some l => if y.closeEnabled l then y.updateCore l.dst (HostOp.effect .closeIn) else y
    | none => y

/-- A run of a system under a schedule. -/
def System.run (y : System) (ms : List Move) : System := ms.foldl System.move y

/-- R192: the links of a linear pipeline of `n` cores. -/
def pipelineLinks (n : Nat) : List Link := (List.range (n - 1)).map fun i => { src := i, dst := i + 1 }

/-- R192: the links of a feedback ring of `n` cores: the last output feeds the first input. -/
def ringLinks (n : Nat) : List Link := (List.range n).map fun i => { src := i, dst := (i + 1) % n }

/-- R92, R123, R126: a hold that is still in force: nothing has been pushed or closed since. -/
def State.holding (s : State) : Bool :=
  match s.st with
  | .awaitInput => s.inFifo.isEmpty && !s.inClosed
  | .awaitOutput => !s.outClosed && !Depth.hasRoom s.cfg.outDepth s.outFifo
  | .idle | .running | .halted | .faulted => false

/-- R195: every core is terminal or in a hold that is still in force, some core is in a hold, and no link move is enabled.
DESIGN CHOICE (log 19): of the producer and consumer moves R195 speaks of, the link moves alone are counted, so a hold on a port
the host owns counts as deadlocked although the host could lift it; and at least one core must be held, so a system whose cores
have all ended is over and not deadlocked. -/
def System.deadlocked (y : System) : Bool :=
  y.cores.all (fun s => s.st.terminal || s.holding)
    && y.cores.any State.holding
    && y.links.all (fun l => (y.transferWord l).isNone && !y.closeEnabled l)

end Sys2Proof.Machine
end

