-- ==== Sys2Proof/Safety.lean ====
section
/-! DEFINITION. The terms claims are stated in. Part 1: the actions of one core and its host, and runs under a schedule
(spec/40_step_fsm.md rule R101). Part 2: the invariants of spec/10_state.md rule R34 and of rules R17 and R92. Part 3: what
the RESOLVE phase of an instruction touches, written over the state before it and without the phases of the model
(spec/40_step_fsm.md rules R95 to R97, spec/60_exceptions.md rule R175). Part 4: the words that cross the ports during a run
(spec/42_io_ports.md rule R122). -/

namespace Sys2Proof.Machine

/-! ### Part 1: actions and runs -/

/-- R101: what can happen to one core: a whole step, or one host operation. -/
inductive Action where
  | core
  | host (op : HostOp)
  deriving DecidableEq, Repr

/-- The state after an action; a disabled host operation changes nothing. -/
def act (a : Action) (s : State) : State :=
  match a with
  | .core => stepState s
  | .host op => (hostOp op s).1

/-- The state after a schedule of actions. -/
def runActions (as : List Action) (s : State) : State := as.foldl (fun s a => act a s) s

/-- A schedule without `H_RESET`. -/
def noReset (as : List Action) : Bool := as.all (fun a => decide (a ≠ .host .reset))

/-! ### Part 2: invariants -/

/-- R34 (a) to (g), with R17 and the canonical form of the memory. The moments of clause (f) that lie in the past are in
`Settled` and in the statements about holds; clauses (h) to (j) are statements about actions and runs. -/
structure Inv (s : State) : Prop where
  /-- R4, R5: the parameters lie in their domains. -/
  cfg_wf : s.cfg.wf = true
  /-- The memory is in canonical form. -/
  mem_wf : Memory.wf s.mem
  /-- R34 (a): `LEN <= MEM_CAP`. -/
  len_le : s.len ≤ s.cfg.memCap
  /-- R34 (a), R11: `MEM[a] = 0` for `a >= LEN`. -/
  beyond : ∀ a, s.len ≤ a → s.peek a = 0
  /-- R34 (b): `PC <= 2^63 + 3`. -/
  pc_le : s.pc.toNat ≤ 2 ^ 63 + 3
  /-- R34 (c): the input buffer fits its capacity. -/
  in_fits : Depth.holds s.cfg.inDepth s.inFifo = true
  /-- R34 (c): the output buffer fits its capacity. -/
  out_fits : Depth.holds s.cfg.outDepth s.outFifo = true
  /-- R34 (d): `HCAUSE != 0` exactly when `ST = HALTED`. -/
  hcause_iff : s.hcause ≠ .none ↔ s.st = .halted
  /-- R34 (d): `FCAUSE != 0` exactly when `ST = FAULTED`. -/
  fcause_iff : s.fcause ≠ .none ↔ s.st = .faulted
  /-- R17: `FPC` and `FVAL` are 0 when `ST != FAULTED`. -/
  report_zero : s.st ≠ .faulted → s.fpc = 0 ∧ s.fval = 0
  /-- R34 (e): `OUT_EOS = 1` exactly when `ST = HALTED`. -/
  eos_iff : s.outEos = true ↔ s.st = .halted
  /-- R34 (f): in AWAIT_INPUT the word at `PC` decodes to IN. -/
  await_in : s.st = .awaitInput → ∃ m1 x2 x3, decode (s.peek s.pc.toNat) = .ok (.inp m1 x2 x3)
  /-- R34 (g): in AWAIT_OUTPUT `OUT_DEPTH` is finite and the word at `PC` decodes to OUT. -/
  await_out : s.st = .awaitOutput →
    s.cfg.outDepth ≠ .inf ∧ ∃ m1 x2 x3, decode (s.peek s.pc.toNat) = .ok (.out m1 x2 x3)

/-- R92: in a hold sub-state, fetching, decoding and resolving the held instruction again succeeds and grows nothing
further. -/
def Settled (s : State) : Prop :=
  (s.st = .awaitInput →
    ∃ m1 x2 x3 d, fetchDecode s = .ok (.inp m1 x2 x3) s ∧ dstParam 1 m1 s = .ok d s) ∧
  (s.st = .awaitOutput →
    ∃ m1 x2 x3 a, fetchDecode s = .ok (.out m1 x2 x3) s ∧ srcParam 1 m1 s = .ok a s)

/-! ### Part 3: the RESOLVE phase over the state before it -/

/-- R9: the raw operand word `Pi = MEM[PC + i]`. -/
def operandWord (s : State) (i : Nat) : Word := s.peek (s.pc.toNat + i)

/-- R95, R96: the effective address of parameter `i` in mode `m`; none in Immediate mode. -/
def paramAddr (s : State) (i : Nat) (m : Mode) : Option Int := effAddr m (operandWord s i) s.rb

/-- R95: the value of source parameter `i` in mode `m`. -/
def srcValue (s : State) (i : Nat) (m : Mode) : Word :=
  match paramAddr s i m with
  | none => operandWord s i
  | some a => s.peek a.toNat

/-- Source parameter `i` in mode `m` can be fetched and read: its operand word lies below `MEM_CAP`, and its effective
address, where it has one, is valid (R41). -/
def SrcReady (s : State) (i : Nat) (m : Mode) : Prop :=
  s.pc.toNat + i < s.cfg.memCap ∧ ∀ a, paramAddr s i m = some a → 0 ≤ a ∧ a < (s.cfg.memCap : Int)

/-- Destination parameter `i` in mode `m` can be fetched and resolves to the valid address `d` (R41, R96). -/
def DstReady (s : State) (i : Nat) (m : Mode) (d : Nat) : Prop :=
  s.pc.toNat + i < s.cfg.memCap ∧ paramAddr s i m = some (d : Int) ∧ d < s.cfg.memCap

/-- The cells the RESOLVE phase reads for source parameter `i` in mode `m`, in order (R97). -/
def srcCells (s : State) (i : Nat) (m : Mode) : List Nat :=
  match paramAddr s i m with
  | none => [s.pc.toNat + i]
  | some a => [s.pc.toNat + i, a.toNat]

/-- R44: `LEN` after accesses to the given cells. -/
def lengthAfter (n : Nat) (cells : List Nat) : Nat := cells.foldl (fun n a => max n (a + 1)) n

/-- R43, R175: the fault a single address raises, negative before too large. -/
def addrFault (s : State) (a : Int) : Option Raised :=
  if a < 0 then some (.addressFault a)
  else if (s.cfg.memCap : Int) ≤ a then some (.capacityFault a)
  else none

/-- R175 (3) to (5): the fault of parameter `i`: CapacityFault on its operand-word fetch, then the fault of its address. -/
def paramFault (s : State) (i : Nat) (m : Mode) : Option Raised :=
  if s.cfg.memCap ≤ s.pc.toNat + i then some (.capacityFault (s.pc.toNat + i : Nat))
  else (paramAddr s i m).bind (addrFault s)

/-- R97, R175: the RESOLVE phase of the parameters `i, i+1, ...`: the cells it reads, and the first fault it finds. A
parameter that faults on its address has had its operand word read. -/
def resolveTrace (s : State) : Nat → List (ParamKind × Mode) → List Nat × Option Raised
  | _, [] => ([], none)
  | i, (k, m) :: ps =>
    match paramFault s i m with
    | some f => (if s.cfg.memCap ≤ s.pc.toNat + i then [] else [s.pc.toNat + i], some f)
    | none =>
      let here := match k with
        | .src => srcCells s i m
        | .dst => [s.pc.toNat + i]
      let rest := resolveTrace s (i + 1) ps
      (here ++ rest.1, rest.2)

/-- R175 (6): the fault of a taken jump, AddressFault on its negative target; no other instruction has one. -/
def jumpFault (s : State) : Instr → Option Raised
  | .jt m1 m2 _ =>
    if srcValue s 1 m1 ≠ 0 ∧ (srcValue s 2 m2).toInt < 0 then some (.addressFault (srcValue s 2 m2).toInt) else none
  | .jf m1 m2 _ =>
    if srcValue s 1 m1 = 0 ∧ (srcValue s 2 m2).toInt < 0 then some (.addressFault (srcValue s 2 m2).toInt) else none
  | .add _ _ _ | .mul _ _ _ | .inp _ _ _ | .out _ _ _ | .lt _ _ _ | .eq _ _ _ | .arb _ _ _ | .halt _ _ _ => none

/-- R175: the cells a step reads before its first fault, and that fault if there is one: the instruction fetch, the
decoder, the parameters in order, a taken jump's target. -/
def firstFault (s : State) : List Nat × Option Raised :=
  if s.cfg.memCap ≤ s.pc.toNat then ([], some (.capacityFault (s.pc.toNat : Nat)))
  else
    match decode (s.peek s.pc.toNat) with
    | .error _ => ([s.pc.toNat], some (.decodeFault (s.peek s.pc.toNat)))
    | .ok i =>
      let trace := resolveTrace s 1 i.paramList
      (s.pc.toNat :: trace.1, trace.2.or (jumpFault s i))

/-- R66 to R71: the legal instruction words, as arithmetic on the value of the word. -/
def LegalWord (W : Word) : Prop :=
  0 ≤ W.toInt ∧ W.toNat / 100000 = 0
    ∧ W.toNat / 100 % 10 ≤ 2 ∧ W.toNat / 1000 % 10 ≤ 2 ∧ W.toNat / 10000 % 10 ≤ 2
    ∧ W.toNat % 100 ∈ [1, 2, 3, 4, 5, 6, 7, 8, 9, 99]
    ∧ ¬ (W.toNat % 100 ∈ [1, 2, 7, 8] ∧ W.toNat / 10000 % 10 = 1)
    ∧ ¬ (W.toNat % 100 = 3 ∧ W.toNat / 100 % 10 = 1)

/-! ### Part 4: the words that cross the ports during a run -/

/-- The words `H_PUSH_IN` puts into the input buffer (R28). -/
def pushedWords : List Action → State → List Word
  | [], _ => []
  | a :: as, s =>
    (match a with
      | .host (.pushIn v) => if HostOp.enabled (.pushIn v) s then [v] else []
      | _ => []) ++ pushedWords as (act a s)

/-- The words core steps take out of the front of the input buffer (R120). -/
def receivedWords : List Action → State → List Word
  | [], _ => []
  | a :: as, s =>
    (match a with
      | .core => s.inFifo.take (s.inFifo.length - (act a s).inFifo.length)
      | _ => []) ++ receivedWords as (act a s)

/-- The words core steps put into the output buffer (R121). -/
def sentWords : List Action → State → List Word
  | [], _ => []
  | a :: as, s =>
    (match a with
      | .core => (act a s).outFifo.drop s.outFifo.length
      | _ => []) ++ sentWords as (act a s)

/-- The words `H_POP_OUT` returns to the consumer (R30). -/
def poppedWords : List Action → State → List Word
  | [], _ => []
  | a :: as, s =>
    (match a with
      | .host .popOut =>
        match (hostOp .popOut s).2 with
        | .value v => [v]
        | _ => []
      | _ => []) ++ poppedWords as (act a s)

end Sys2Proof.Machine
end

