-- ==== Sys2Proof/Certificates/Slice0/Obligations.lean ====
section
/-! DEFINITION. The statements for the provers: one `def Obligations.<Name> : Prop` each, listed in OBLIGATIONS.json. They
are about the machine of spec/, for every state (hence for every setting of `MEM_CAP`, `IN_DEPTH` and `OUT_DEPTH`: log 1),
and about no program. -/

open Sys2Proof Sys2Proof.Machine

/-! ### Encoding (spec/30_encoding.md) -/

/-- R61, R66: decoding the instruction word of a well-formed instruction gives the instruction back, every mode digit at
every value, the ignored ones too (the term keeps them: log 15, DESIGN CHOICE). -/
def Obligations.DecodeInvertsEncode : Prop :=
  ∀ i : Instr, i.WellFormed → decode (encode i) = .ok i

/-- R61, R66: every word that decodes is `encode` of the term it decodes to, and that term is well-formed. The term here is the
opcode with all three mode digits, the ignored ones too (log 15, DESIGN CHOICE), so `1199` and `99` are two terms, though R72 and
R165 make them one HALT with one effect (IgnoredModeDigitsHaveNoEffect). -/
def Obligations.EncodeInvertsDecode : Prop :=
  ∀ (W : Word) (i : Instr), decode W = .ok i → encode i = W ∧ i.WellFormed

/-- R66, R67 to R71: the legal words are exactly those that pass the spec's tests, and the instruction has the word's opcode and
mode digits. That a negative word, a digit above the third mode digit and an Immediate destination are illegal are the spec's
decisions D5, D6 and D8. -/
def Obligations.DecodeAcceptsExactlyLegalWords : Prop :=
  ∀ (W : Word) (i : Instr), decode W = .ok i ↔
    LegalWord W ∧ i.opcode = W.toNat % 100 ∧ i.mode1.digit = W.toNat / 100 % 10
      ∧ i.mode2.digit = W.toNat / 1000 % 10 ∧ i.mode3.digit = W.toNat / 10000 % 10

/-- 30_encoding.md section 7: words the spec decodes or rejects itself. -/
def Obligations.SampleWordsDecode : Prop :=
  decode 1002 = .ok (.mul .position .immediate .position)
    ∧ decode 1105 = .ok (.jt .immediate .immediate .position)
    ∧ decode 204 = .ok (.out .relative .position .position)
    ∧ decode 109 = .ok (.arb .immediate .position .position)
    ∧ decode 21101 = .ok (.add .immediate .immediate .relative)
    ∧ decode 99 = .ok (.halt .position .position .position)
    ∧ decode 10001 = .error .immediateDestination
    ∧ decode 0 = .error .opcode

/-- R67 to R71, R94: each illegal encoding, when fetched by a core that steps, raises DecodeFault with the word itself
recorded, before any operand word is read: `LEN` grows by the instruction fetch alone. That a negative word, a digit above the
third mode digit and an Immediate destination are illegal are the spec's decisions D5, D6 and D8. -/
def Obligations.IllegalEncodingTakesDecodeFault : Prop :=
  ∀ (s : State) (W : Word), s.st.steps = true → s.pc.toNat < s.cfg.memCap → s.peek s.pc.toNat = W →
    (W.toInt < 0 ∨ 100000 ≤ W.toInt ∨ W.toNat % 100 ∉ [1, 2, 3, 4, 5, 6, 7, 8, 9, 99]
      ∨ 2 < W.toNat / 100 % 10 ∨ 2 < W.toNat / 1000 % 10 ∨ 2 < W.toNat / 10000 % 10
      ∨ (W.toNat % 100 ∈ [1, 2, 7, 8] ∧ W.toNat / 10000 % 10 = 1)
      ∨ (W.toNat % 100 = 3 ∧ W.toNat / 100 % 10 = 1)) →
    step s = .next { s with
      len := max s.len (s.pc.toNat + 1), st := .faulted, fcause := .decodeFault, fpc := s.pc, fval := W }

/-! ### The step (spec/40_step_fsm.md) -/

/-- R90: in IDLE, HALTED and FAULTED the core takes no step and changes nothing. That `step` answers the same state there is the
model's reading of 'takes no step' (log 4, DEDUCED). -/
def Obligations.NoStepOutsideRunning : Prop :=
  ∀ s : State, s.st = .idle ∨ s.st = .halted ∨ s.st = .faulted → step s = .next s

/-- R94, R102: a step of a core that steps, whose word at `PC` decodes to `i`, is the meaning of `i` on the state the fetch
left, which differs only in `LEN`; where the word is illegal, the step raises DecodeFault with the word recorded, and `LEN` has
grown by the fetch alone. -/
def Obligations.StepRunsDecodedInstruction : Prop :=
  ∀ s : State, s.st.steps = true → s.pc.toNat < s.cfg.memCap →
    (∀ i, decode (s.peek s.pc.toNat) = .ok i → step s = exec i { s with len := max s.len (s.pc.toNat + 1) }) ∧
    (∀ e, decode (s.peek s.pc.toNat) = .error e → step s = .next { s with
      len := max s.len (s.pc.toNat + 1), st := .faulted, fcause := .decodeFault, fpc := s.pc,
      fval := s.peek s.pc.toNat })

/-- R93: the fetch is a read at `PC`, and raises nothing but `CapacityFault(PC)`, when `PC >= MEM_CAP` (the upper limit is the
spec's decision D3); a fetch at or beyond `LEN` grows the tape to `PC + 1`, reads 0 and ends in a DecodeFault with `FVAL = 0`. -/
def Obligations.FetchReadsAtPc : Prop :=
  ∀ s : State,
    (s.cfg.memCap ≤ s.pc.toNat → fetch s = .raised (.capacityFault (s.pc.toNat : Nat)) s) ∧
    (s.pc.toNat < s.cfg.memCap → fetch s = .ok (s.peek s.pc.toNat)
      (if s.len ≤ s.pc.toNat then { s with len := s.pc.toNat + 1 } else s)) ∧
    (s.st.steps = true →
      (s.cfg.memCap ≤ s.pc.toNat →
        step s = .next { s with st := .faulted, fcause := .capacityFault, fpc := s.pc, fval := s.pc }) ∧
      (s.pc.toNat < s.cfg.memCap → s.len ≤ s.pc.toNat → (∀ a, s.len ≤ a → s.peek a = 0) →
        step s = .next { s with
          len := s.pc.toNat + 1, st := .faulted, fcause := .decodeFault, fpc := s.pc, fval := 0 }))

/-- R175, R93, R94, R97, R142, R100: a step takes the first fault in the order of R175 (`firstFault`, written over the state
before the step: the fetch, the decoder, the parameters in order, a taken jump's target), `LEN` grown by exactly the reads made
before it and nothing else changed but the fault's registers; where there is no fault, the step does not end in FAULTED. The
order is the spec's decision D10, the upper limit on addresses D3, the fault at the jump D11, precision D26. -/
def Obligations.StepTakesFirstFault : Prop :=
  ∀ s : State, s.st.steps = true →
    (∀ cells f, firstFault s = (cells, some f) →
      step s = .next { s with
        len := lengthAfter s.len cells, st := .faulted, fcause := f.cause, fpc := s.pc, fval := wrap64 f.info }) ∧
    ((firstFault s).2 = none → ∃ t, step s = .next t ∧ t.st ≠ .faulted)

/-- R100, R177: a step that ends in FAULTED has changed `ST`, `FCAUSE`, `FPC`, `FVAL` and `LEN` only; `FPC` is the `PC` of the
faulting instruction, a cause is recorded, and `LEN` has not shrunk (the spec's decision D26). -/
def Obligations.FaultsArePrecise : Prop :=
  ∀ s t : State, s.st.steps = true → step s = .next t → t.st = .faulted →
    t = { s with len := t.len, st := .faulted, fcause := t.fcause, fpc := s.pc, fval := t.fval }
      ∧ t.fcause ≠ .none ∧ s.len ≤ t.len

/-! ### Memory and operands (spec/20_memory.md, spec/40_step_fsm.md) -/

/-- R45: `MemRead`: the check, the growth to exactly `a + 1` when `a >= LEN`, the cell; no cell changes; a read at or beyond
`LEN` returns 0 (in a state whose cells there hold 0: R11). The upper limit and the exact growth are the spec's decisions D3
and D4. -/
def Obligations.MemReadChecksThenGrows : Prop :=
  ∀ (a : Int) (s : State),
    (memRead a s =
      if a < 0 then .raised (.addressFault a) s
      else if (s.cfg.memCap : Int) ≤ a then .raised (.capacityFault a) s
      else .ok (s.peek a.toNat) (if (s.len : Int) ≤ a then { s with len := a.toNat + 1 } else s)) ∧
    (a < (s.cfg.memCap : Int) → (s.len : Int) ≤ a → (∀ b, s.len ≤ b → s.peek b = 0) →
      memRead a s = .ok 0 { s with len := a.toNat + 1 })

/-- R46: `MemWrite`: the same checks and growth; then exactly the addressed cell holds the value and every other cell reads
as before. -/
def Obligations.MemWriteChangesOneCell : Prop :=
  ∀ (a : Int) (v : Word) (s : State),
    (a < 0 → memWrite a v s = .raised (.addressFault a) s) ∧
    ((s.cfg.memCap : Int) ≤ a → 0 ≤ a → memWrite a v s = .raised (.capacityFault a) s) ∧
    (0 ≤ a → a < (s.cfg.memCap : Int) → ∃ t, memWrite a v s = .ok () t
      ∧ t = { s with mem := t.mem, len := if (s.len : Int) ≤ a then a.toNat + 1 else s.len }
      ∧ t.peek a.toNat = v ∧ ∀ b, b ≠ a.toNat → t.peek b = s.peek b)

/-- R95: a source in Position mode reads at the operand word, in Immediate mode is the operand word and reads no memory, in
Relative mode reads at the exact sum of the operand word and `RB`, not wrapped (the exact sum is the spec's decision D2). -/
def Obligations.SourceModesResolve : Prop :=
  ∀ (p : Word) (s : State),
    resolveSrc .position p s = memRead p.toInt s
    ∧ resolveSrc .immediate p s = .ok p s
    ∧ resolveSrc .relative p s = memRead (p.toInt + s.rb.toInt) s

/-- R96: a destination in Position mode is the operand word, in Relative mode the exact sum of the operand word and `RB`; its
address is checked here (the spec's decision D9), its cell is not read and the tape does not grow. -/
def Obligations.DestinationModesResolve : Prop :=
  ∀ (p : Word) (s : State) (m : Mode) (d : Int),
    (m = .position ∧ d = p.toInt) ∨ (m = .relative ∧ d = p.toInt + s.rb.toInt) →
      resolveDst m p s =
        if d < 0 then .raised (.addressFault d) s
        else if (s.cfg.memCap : Int) ≤ d then .raised (.capacityFault d) s
        else .ok d.toNat s

/-- R54, R211: a store is seen by the very next fetch: after `MemWrite` of a legal word at the address `PC` holds, a core that
steps runs that word's instruction, and the fetch grows nothing. -/
def Obligations.StoreIsSeenByNextFetch : Prop :=
  ∀ (s t : State) (a : Nat) (v : Word) (i : Instr), memWrite a v s = .ok () t → t.pc.toNat = a → t.st.steps = true →
    decode v = .ok i → step t = exec i t

/-! ### Instructions: the effect, from the state alone (spec/41 to 46) -/

/-- R111, R110 (wrapping is the spec's decision D1): ADD completes whenever its parameters resolve: `MEM[dest]` is
`wrap64(a + b)`, `PC` advances by 4, the tape has grown over the cells read and written, everything else is as before. -/
def Obligations.AddStoresWrappedSum : Prop :=
  ∀ (s : State) (m1 m2 m3 : Mode) (d : Nat), SrcReady s 1 m1 → SrcReady s 2 m2 → DstReady s 3 m3 d →
    exec (.add m1 m2 m3) s = .next { s with
      mem := Memory.set s.mem d (wrap64 ((srcValue s 1 m1).toInt + (srcValue s 2 m2).toInt))
      len := lengthAfter s.len (srcCells s 1 m1 ++ srcCells s 2 m2 ++ [s.pc.toNat + 3, d])
      pc := s.pc + 4
      st := .running }

/-- R112, R110 (D1): MUL completes whenever its parameters resolve: `MEM[dest]` is `wrap64(a * b)`, `PC` advances by 4, the tape
has grown over the cells read and written, everything else is as before. -/
def Obligations.MulStoresWrappedProduct : Prop :=
  ∀ (s : State) (m1 m2 m3 : Mode) (d : Nat), SrcReady s 1 m1 → SrcReady s 2 m2 → DstReady s 3 m3 d →
    exec (.mul m1 m2 m3) s = .next { s with
      mem := Memory.set s.mem d (wrap64 ((srcValue s 1 m1).toInt * (srcValue s 2 m2).toInt))
      len := lengthAfter s.len (srcCells s 1 m1 ++ srcCells s 2 m2 ++ [s.pc.toNat + 3, d])
      pc := s.pc + 4
      st := .running }

/-- R150: LT completes whenever its parameters resolve: `MEM[dest]` is 1 if `a < b` on the signed values and 0 otherwise, `PC`
advances by 4, the tape has grown over the cells read and written, everything else is as before. -/
def Obligations.LtStoresSignedComparison : Prop :=
  ∀ (s : State) (m1 m2 m3 : Mode) (d : Nat), SrcReady s 1 m1 → SrcReady s 2 m2 → DstReady s 3 m3 d →
    exec (.lt m1 m2 m3) s = .next { s with
      mem := Memory.set s.mem d (if (srcValue s 1 m1).toInt < (srcValue s 2 m2).toInt then 1 else 0)
      len := lengthAfter s.len (srcCells s 1 m1 ++ srcCells s 2 m2 ++ [s.pc.toNat + 3, d])
      pc := s.pc + 4
      st := .running }

/-- R151: EQ completes whenever its parameters resolve: `MEM[dest]` is 1 if `a = b` and 0 otherwise, `PC` advances by 4, the
tape has grown over the cells read and written, everything else is as before. -/
def Obligations.EqStoresEquality : Prop :=
  ∀ (s : State) (m1 m2 m3 : Mode) (d : Nat), SrcReady s 1 m1 → SrcReady s 2 m2 → DstReady s 3 m3 d →
    exec (.eq m1 m2 m3) s = .next { s with
      mem := Memory.set s.mem d (if (srcValue s 1 m1).toInt = (srcValue s 2 m2).toInt then 1 else 0)
      len := lengthAfter s.len (srcCells s 1 m1 ++ srcCells s 2 m2 ++ [s.pc.toNat + 3, d])
      pc := s.pc + 4
      st := .running }

/-- R120, R124: IN whose destination resolves completes when there is a word in the buffer, the port closed or not: the oldest
word is popped and stored, `PC` advances by 2, everything else but `LEN` is as before. -/
def Obligations.InReceivesOldestWord : Prop :=
  ∀ (s : State) (m1 x2 x3 : Mode) (d : Nat) (x : Word) (q : Fifo), DstReady s 1 m1 d → s.inFifo = x :: q →
    exec (.inp m1 x2 x3) s = .next { s with
      mem := Memory.set s.mem d x
      len := lengthAfter s.len [s.pc.toNat + 1, d]
      inFifo := q
      pc := s.pc + 2
      st := .running }

/-- R120, R124, R127: IN on an empty, closed port halts the core: `HCAUSE = 2`, the end-of-stream marker set, `PC` and the
destination cell untouched, the tape not grown for the destination (the spec's decision D14). -/
def Obligations.InOnClosedEmptyPortHalts : Prop :=
  ∀ (s : State) (m1 x2 x3 : Mode) (d : Nat), DstReady s 1 m1 d → s.inFifo = [] → s.inClosed = true →
    exec (.inp m1 x2 x3) s = .next { s with
      len := lengthAfter s.len [s.pc.toNat + 1]
      st := .halted
      hcause := .inputClosed
      outEos := true }

/-- R120, R92, R123: IN on an empty, open port holds in AWAIT_INPUT and changes nothing else but `LEN`. -/
def Obligations.InOnOpenEmptyPortHolds : Prop :=
  ∀ (s : State) (m1 x2 x3 : Mode) (d : Nat), DstReady s 1 m1 d → s.inFifo = [] → s.inClosed = false →
    exec (.inp m1 x2 x3) s = .next { s with
      len := lengthAfter s.len [s.pc.toNat + 1]
      st := .awaitInput }

/-- R121, R128: OUT whose source resolves completes on an open port with room: the value goes to the tail of the buffer and into
the history, `PC` advances by 2, everything else but `LEN` is as before. -/
def Obligations.OutPushesValue : Prop :=
  ∀ (s : State) (m1 x2 x3 : Mode), SrcReady s 1 m1 → s.outClosed = false →
    (s.cfg.outDepth = .inf ∨ ∃ n, s.cfg.outDepth = .finite n ∧ s.outFifo.length < n) →
    exec (.out m1 x2 x3) s = .next { s with
      len := lengthAfter s.len (srcCells s 1 m1)
      outFifo := s.outFifo ++ [srcValue s 1 m1]
      outLog := s.outLog ++ [srcValue s 1 m1]
      pc := s.pc + 2
      st := .running }

/-- R121, R125: OUT on a closed port, full or not: the value is discarded, `OUT_DROP` is set, the history keeps the value and
the program goes on (the bit and the history entry are the spec's decision D16). -/
def Obligations.OutOnClosedPortDrops : Prop :=
  ∀ (s : State) (m1 x2 x3 : Mode), SrcReady s 1 m1 → s.outClosed = true →
    exec (.out m1 x2 x3) s = .next { s with
      len := lengthAfter s.len (srcCells s 1 m1)
      outDrop := true
      outLog := s.outLog ++ [srcValue s 1 m1]
      pc := s.pc + 2
      st := .running }

/-- R121, R126, R92: OUT on an open, full port of finite depth holds in AWAIT_OUTPUT, drops nothing and changes nothing else
but `LEN` (finite depth is the spec's decision D17). -/
def Obligations.OutOnFullPortHolds : Prop :=
  ∀ (s : State) (m1 x2 x3 : Mode) (n : Nat), SrcReady s 1 m1 → s.outClosed = false →
    s.cfg.outDepth = .finite n → n ≤ s.outFifo.length →
    exec (.out m1 x2 x3) s = .next { s with
      len := lengthAfter s.len (srcCells s 1 m1)
      st := .awaitOutput }

/-- R140, R142: JT jumps to the value of its second parameter when the first is not 0, and advances by 3 otherwise; a
negative target is harmless when the jump is not taken. -/
def Obligations.JtJumpsWhenNonzero : Prop :=
  ∀ (s : State) (m1 m2 x3 : Mode), SrcReady s 1 m1 → SrcReady s 2 m2 →
    (srcValue s 1 m1 ≠ 0 → 0 ≤ (srcValue s 2 m2).toInt) →
    exec (.jt m1 m2 x3) s = .next { s with
      len := lengthAfter s.len (srcCells s 1 m1 ++ srcCells s 2 m2)
      pc := if srcValue s 1 m1 ≠ 0 then srcValue s 2 m2 else s.pc + 3
      st := .running }

/-- R141, R142: JF jumps when its first parameter is 0, and advances by 3 otherwise. -/
def Obligations.JfJumpsWhenZero : Prop :=
  ∀ (s : State) (m1 m2 x3 : Mode), SrcReady s 1 m1 → SrcReady s 2 m2 →
    (srcValue s 1 m1 = 0 → 0 ≤ (srcValue s 2 m2).toInt) →
    exec (.jf m1 m2 x3) s = .next { s with
      len := lengthAfter s.len (srcCells s 1 m1 ++ srcCells s 2 m2)
      pc := if srcValue s 1 m1 = 0 then srcValue s 2 m2 else s.pc + 3
      st := .running }

/-- R142, R100: a taken jump to a negative target raises AddressFault at the jump: `PC` stays, `FPC` reports the jump and
`FVAL` the target (the spec's decision D11). -/
def Obligations.TakenJumpToNegativeTargetFaults : Prop :=
  ∀ (s : State) (m1 m2 x3 : Mode), SrcReady s 1 m1 → SrcReady s 2 m2 → (srcValue s 2 m2).toInt < 0 →
    (srcValue s 1 m1 ≠ 0 → exec (.jt m1 m2 x3) s = .next { s with
      len := lengthAfter s.len (srcCells s 1 m1 ++ srcCells s 2 m2)
      st := .faulted, fcause := .addressFault, fpc := s.pc, fval := srcValue s 2 m2 }) ∧
    (srcValue s 1 m1 = 0 → exec (.jf m1 m2 x3) s = .next { s with
      len := lengthAfter s.len (srcCells s 1 m1 ++ srcCells s 2 m2)
      st := .faulted, fcause := .addressFault, fpc := s.pc, fval := srcValue s 2 m2 })

/-- R160, R110 (D1): ARB adds its value to `RB`, wrapping; the value is resolved with the old `RB`. -/
def Obligations.ArbAddsToRelativeBase : Prop :=
  ∀ (s : State) (m1 x2 x3 : Mode), SrcReady s 1 m1 →
    exec (.arb m1 x2 x3) s = .next { s with
      len := lengthAfter s.len (srcCells s 1 m1)
      rb := wrap64 (s.rb.toInt + (srcValue s 1 m1).toInt)
      pc := s.pc + 2
      st := .running }

/-- R165, R127: HALT, in every state and whatever its ignored mode digits: `ST`, `HCAUSE` and `OUT_EOS` are written and
nothing else changes, `PC` and `LEN` included (`PC` staying is the spec's decision D28). -/
def Obligations.HaltEndsTheRun : Prop :=
  ∀ (s : State) (x1 x2 x3 : Mode),
    exec (.halt x1 x2 x3) s = .next { s with st := .halted, hcause := .haltInstruction, outEos := true }

/-- R72: the mode digits of parameters the opcode does not have are ignored: the canonical word's instruction has the same
effect in every state, and the same opcode and length (the spec's decision D7). -/
def Obligations.IgnoredModeDigitsHaveNoEffect : Prop :=
  ∀ (i : Instr) (s : State), exec i s = exec i.canonical s
    ∧ i.canonical.opcode = i.opcode ∧ i.canonical.length = i.length

/-! ### Frames: what an instruction leaves alone, completed or faulted -/

/-- R98, R19, R177: ADD, MUL, LT and EQ leave `RB`, the ports, `HCAUSE` and the history alone; unless the step faults they
leave the fault report alone; the only cell that may change is the destination. -/
def Obligations.StoringInstructionsFrame : Prop :=
  ∀ (i : Instr) (s t : State) (m1 m2 m3 : Mode),
    i = .add m1 m2 m3 ∨ i = .mul m1 m2 m3 ∨ i = .lt m1 m2 m3 ∨ i = .eq m1 m2 m3 → exec i s = .next t →
    t.cfg = s.cfg ∧ t.rb = s.rb ∧ t.hcause = s.hcause ∧ t.inFifo = s.inFifo ∧ t.inClosed = s.inClosed
      ∧ t.outFifo = s.outFifo ∧ t.outClosed = s.outClosed ∧ t.outEos = s.outEos ∧ t.outDrop = s.outDrop
      ∧ t.outLog = s.outLog ∧ s.len ≤ t.len
      ∧ (t.st ≠ .faulted → t.fcause = s.fcause ∧ t.fpc = s.fpc ∧ t.fval = s.fval)
      ∧ (t.st = .faulted → ∀ a, t.peek a = s.peek a)
      ∧ ∀ a : Nat, paramAddr s 3 m3 ≠ some (a : Int) → t.peek a = s.peek a

/-- R98, R120, R177: IN leaves `RB`, the output side and `IN_CLOSED` alone; it takes at most the oldest word, and only when it
completes; `HCAUSE` and `OUT_EOS` change only on a halt; the only cell that may change is the destination, and only when it
completes. -/
def Obligations.InFrame : Prop :=
  ∀ (s t : State) (m1 x2 x3 : Mode), exec (.inp m1 x2 x3) s = .next t →
    t.cfg = s.cfg ∧ t.rb = s.rb ∧ t.inClosed = s.inClosed ∧ t.outFifo = s.outFifo ∧ t.outClosed = s.outClosed
      ∧ t.outDrop = s.outDrop ∧ t.outLog = s.outLog ∧ s.len ≤ t.len
      ∧ (t.st ≠ .halted → t.hcause = s.hcause ∧ t.outEos = s.outEos)
      ∧ (t.st ≠ .faulted → t.fcause = s.fcause ∧ t.fpc = s.fpc ∧ t.fval = s.fval)
      ∧ (t.st = .running → ∃ x, s.inFifo = x :: t.inFifo)
      ∧ (t.st ≠ .running → t.inFifo = s.inFifo ∧ t.pc = s.pc ∧ ∀ a, t.peek a = s.peek a)
      ∧ ∀ a : Nat, paramAddr s 1 m1 ≠ some (a : Int) → t.peek a = s.peek a

/-- R98, R121, R177: OUT changes no cell, no `RB`, nothing of the input port, no `HCAUSE`, `OUT_EOS` or `OUT_CLOSED`; when it does
not complete it has emitted nothing. -/
def Obligations.OutFrame : Prop :=
  ∀ (s t : State) (m1 x2 x3 : Mode), exec (.out m1 x2 x3) s = .next t →
    t.cfg = s.cfg ∧ t.rb = s.rb ∧ t.hcause = s.hcause ∧ t.inFifo = s.inFifo ∧ t.inClosed = s.inClosed
      ∧ t.outClosed = s.outClosed ∧ t.outEos = s.outEos ∧ s.len ≤ t.len
      ∧ (t.st ≠ .faulted → t.fcause = s.fcause ∧ t.fpc = s.fpc ∧ t.fval = s.fval)
      ∧ (t.st ≠ .running → t.pc = s.pc ∧ t.outFifo = s.outFifo ∧ t.outLog = s.outLog ∧ t.outDrop = s.outDrop)
      ∧ ∀ a, t.peek a = s.peek a

/-- R98, R140, R141, R177: JT and JF change `PC`, `ST` and `LEN` only, and the fault's own registers when they fault. -/
def Obligations.JumpFrame : Prop :=
  ∀ (i : Instr) (s t : State) (m1 m2 x3 : Mode), i = .jt m1 m2 x3 ∨ i = .jf m1 m2 x3 → exec i s = .next t →
    t = { s with len := t.len, pc := t.pc, st := t.st, fcause := t.fcause, fpc := t.fpc, fval := t.fval }
      ∧ s.len ≤ t.len
      ∧ (t.st ≠ .faulted → t.fcause = s.fcause ∧ t.fpc = s.fpc ∧ t.fval = s.fval)
      ∧ (t.st = .faulted → t.pc = s.pc)

/-- R98, R160, R177: ARB changes `RB`, `PC`, `ST` and `LEN` only, and the fault's own registers when it faults; then `RB` and
`PC` stay. -/
def Obligations.ArbFrame : Prop :=
  ∀ (s t : State) (m1 x2 x3 : Mode), exec (.arb m1 x2 x3) s = .next t →
    t = { s with len := t.len, pc := t.pc, rb := t.rb, st := t.st, fcause := t.fcause, fpc := t.fpc, fval := t.fval }
      ∧ s.len ≤ t.len
      ∧ (t.st ≠ .faulted → t.fcause = s.fcause ∧ t.fpc = s.fpc ∧ t.fval = s.fval)
      ∧ (t.st = .faulted → t.pc = s.pc ∧ t.rb = s.rb)

/-! ### Whole-machine rules -/

/-- R13, R160: a step that changes `RB` is the step of an ARB instruction at `PC`. -/
def Obligations.OnlyArbWritesRelativeBase : Prop :=
  ∀ s t : State, step s = .next t → t.rb ≠ s.rb →
    ∃ m1 x2 x3, decode (s.peek s.pc.toNat) = .ok (.arb m1 x2 x3)

/-- R98: a cell changes in a step only if it is the destination of the instruction at `PC`. -/
def Obligations.StepWritesOnlyItsDestination : Prop :=
  ∀ (s t : State) (a : Nat), step s = .next t → t.peek a ≠ s.peek a →
    ∃ i k m, decode (s.peek s.pc.toNat) = .ok i ∧ i.destination = some (k, m) ∧ paramAddr s k m = some (a : Int)

/-- R178: HALTED and FAULTED are terminal: no action but `H_RESET` changes `ST`, `PC`, `RB`, a cell, `LEN`, a cause or the fault
report, and `H_RESET` discards the whole machine state. What reset leaves is the reset table (R200, R35; mostly the spec's
decision D22); that it keeps the parameters is the model's choice (log 1, DESIGN CHOICE); that `step` answers the same state is
read from R90 (log 4, DEDUCED). -/
def Obligations.TerminalStatesAreIrreversible : Prop :=
  ∀ s : State, s.st = .halted ∨ s.st = .faulted →
    (∀ a : Action, a ≠ .host .reset →
      (act a s).st = s.st ∧ (act a s).pc = s.pc ∧ (act a s).rb = s.rb ∧ (act a s).mem = s.mem ∧ (act a s).len = s.len
        ∧ (act a s).hcause = s.hcause ∧ (act a s).fcause = s.fcause ∧ (act a s).fpc = s.fpc
        ∧ (act a s).fval = s.fval)
      ∧ step s = .next s
      ∧ act (.host .reset) s = State.resetWith s.cfg

/-- R11, R34 (h): `LEN` never decreases and the four port bits never go from 1 to 0, except by reset. -/
def Obligations.OnlyResetShrinksTapeOrClearsPortBits : Prop :=
  ∀ (a : Action) (s : State), a ≠ .host .reset →
    s.len ≤ (act a s).len
      ∧ (s.inClosed = true → (act a s).inClosed = true) ∧ (s.outClosed = true → (act a s).outClosed = true)
      ∧ (s.outEos = true → (act a s).outEos = true) ∧ (s.outDrop = true → (act a s).outDrop = true)

/-- R123, R126, R92: a step ends in AWAIT_INPUT only because an IN found its port empty and open, and in AWAIT_OUTPUT only
because an OUT found its port, of finite depth, full and open; nothing but `ST` and `LEN` has changed. -/
def Obligations.HoldsOnlyOnBlockedPort : Prop :=
  ∀ s t : State, step s = .next t →
    (t.st = .awaitInput →
      (∃ m1 x2 x3, decode (s.peek s.pc.toNat) = .ok (.inp m1 x2 x3)) ∧ s.inFifo = [] ∧ s.inClosed = false
        ∧ t = { s with len := t.len, st := .awaitInput })
    ∧ (t.st = .awaitOutput →
      (∃ m1 x2 x3, decode (s.peek s.pc.toNat) = .ok (.out m1 x2 x3))
        ∧ (∃ n, s.cfg.outDepth = .finite n ∧ n ≤ s.outFifo.length) ∧ s.outClosed = false
        ∧ t = { s with len := t.len, st := .awaitOutput })

/-- R181, R207: a step ends in HALTED only by a HALT instruction (`HCAUSE = 1`) or by an IN on an empty, closed port
(`HCAUSE = 2`), with the end-of-stream marker set and `PC` unchanged. That `PC` stays is the spec's decision D28 for HALT and D14
for IN. -/
def Obligations.HaltsOnlyByHaltOrClosedInput : Prop :=
  ∀ s t : State, s.st.steps = true → step s = .next t → t.st = .halted →
    t.outEos = true ∧ t.pc = s.pc ∧
      (((∃ x1 x2 x3, decode (s.peek s.pc.toNat) = .ok (.halt x1 x2 x3)) ∧ t.hcause = .haltInstruction) ∨
        ((∃ m1 x2 x3, decode (s.peek s.pc.toNat) = .ok (.inp m1 x2 x3)) ∧ s.inFifo = [] ∧ s.inClosed = true
          ∧ t.hcause = .inputClosed))

/-! ### Invariants (spec/10_state.md rule R34) -/

/-- R35, R34: the invariant holds after reset, for every legal setting of the parameters. -/
def Obligations.InvariantHoldsAtReset : Prop :=
  Inv State.reset ∧ ∀ c : Config, c.wf = true → Inv (State.resetWith c)

/-- R34: every step of the core keeps the invariant, from every state that meets it. -/
def Obligations.StepKeepsInvariant : Prop :=
  ∀ s t : State, Inv s → step s = .next t → Inv t

/-- R34: every host operation keeps the invariant, from every state that meets it. -/
def Obligations.HostOperationsKeepInvariant : Prop :=
  ∀ (op : HostOp) (s : State), Inv s → Inv (hostOp op s).1

/-- R92: every action keeps the property that a held instruction, attempted again, fetches, decodes and resolves without a
fault and without growth. -/
def Obligations.ActionsKeepHoldsSettled : Prop :=
  ∀ (a : Action) (s : State), Settled s → Settled (act a s)

/-- R92: while nothing lifts a hold, attempting it again changes nothing at all. -/
def Obligations.HoldRepeatsUnchanged : Prop :=
  ∀ s : State, Settled s → s.holding = true → step s = .next s

/-! ### Ports (spec/42_io_ports.md) -/

/-- R122: over any run without a reset, from any state, the words IN instructions took followed by the words still in the
input buffer are the words there at the start followed by the words pushed; and the words the consumer popped followed by
those still in the output buffer are the words there at the start followed by the words OUT instructions pushed. -/
def Obligations.PortsDeliverInOrder : Prop :=
  ∀ (as : List Action) (s : State), noReset as = true →
    receivedWords as s ++ (runActions as s).inFifo = s.inFifo ++ pushedWords as s
      ∧ poppedWords as s ++ (runActions as s).outFifo = s.outFifo ++ sentWords as s

/-- R128, R34 (j): over any run without a reset that dropped nothing, the history has grown by exactly the words pushed to the
output buffer. -/
def Obligations.HistoryIsWhatWasSent : Prop :=
  ∀ (as : List Action) (s : State), noReset as = true → (runActions as s).outDrop = false →
    (runActions as s).outLog = s.outLog ++ sentWords as s

/-- R101, U4: a push by the producer commutes with a step that does not wait for input: whichever comes first, the same state
results. -/
def Obligations.PushCommutesWithStep : Prop :=
  ∀ (s t : State) (v : Word), s.inClosed = false → step s = .next t → t.st ≠ .awaitInput →
    step { s with inFifo := s.inFifo ++ [v] } = .next { t with inFifo := t.inFifo ++ [v] }

/-! ### The host interface, reset, load and start (spec/10_state.md, spec/70_reset_and_hazards.md) -/

/-- R35, R200: after `H_RESET`, applied in any state, every element has the value of the reset table (most of it the
spec's decision D22). That the parameters stay, the clause `t.cfg = s.cfg`, is no row of that table: it is the model's choice
(log 1, DESIGN CHOICE). -/
def Obligations.ResetGivesTheResetTable : Prop :=
  ∀ s : State, ∃ t, hostOp .reset s = (t, .done)
    ∧ t.cfg = s.cfg ∧ t.st = .idle ∧ t.pc = 0 ∧ t.rb = 0 ∧ t.len = 0 ∧ (∀ a, t.peek a = 0)
    ∧ t.inFifo = [] ∧ t.outFifo = [] ∧ t.inClosed = false ∧ t.outClosed = false ∧ t.outEos = false ∧ t.outDrop = false
    ∧ t.hcause = .none ∧ t.fcause = .none ∧ t.fpc = 0 ∧ t.fval = 0 ∧ t.outLog = []

/-- R205: after reset, loading an image that fits, supplying input that fits and starting give `Init(P, I)`; closing the input
before the start gives `Init(P, I, closed)` (the spec's decision D18). -/
def Obligations.LoadAndStartGiveLaunchState : Prop :=
  ∀ (c : Config) (P I : List Word), P.length ≤ c.memCap → Depth.holds c.inDepth I = true →
    (hostOp .start (pushInputs I (loadImage P (State.resetWith c)))).1 = State.launch c P I false
      ∧ (hostOp .start (hostOp .closeIn (pushInputs I (loadImage P (State.resetWith c)))).1).1
        = State.launch c P I true

/-- R26, R27: `H_LOAD` appends one word at address `LEN` in IDLE below `MEM_CAP`, `H_START` leaves IDLE for RUNNING; otherwise
each is refused and changes nothing (the spec's decision D18). -/
def Obligations.ControllerOperations : Prop :=
  ∀ (s : State) (v : Word),
    (s.st = .idle → s.len < s.cfg.memCap → ∃ t, hostOp (.load v) s = (t, .done)
      ∧ t = { s with mem := t.mem, len := s.len + 1 } ∧ t.peek s.len = v ∧ ∀ b, b ≠ s.len → t.peek b = s.peek b)
    ∧ (s.st ≠ .idle ∨ s.cfg.memCap ≤ s.len → hostOp (.load v) s = (s, .refused))
    ∧ (s.st = .idle → hostOp .start s = ({ s with st := .running }, .done))
    ∧ (s.st ≠ .idle → hostOp .start s = (s, .refused))

/-- R28, R29, R30, R31: the producer's and the consumer's operations, each with its enabling condition; a disabled one is
refused and changes nothing (U12). The enabling conditions and the refusals are the spec's decisions D18 and D30. -/
def Obligations.PortOperations : Prop :=
  ∀ (s : State) (v : Word),
    (s.inClosed = false → (s.cfg.inDepth = .inf ∨ ∃ n, s.cfg.inDepth = .finite n ∧ s.inFifo.length < n) →
      hostOp (.pushIn v) s = ({ s with inFifo := s.inFifo ++ [v] }, .done))
    ∧ (s.inClosed = true ∨ (∃ n, s.cfg.inDepth = .finite n ∧ n ≤ s.inFifo.length) →
      hostOp (.pushIn v) s = (s, .refused))
    ∧ (s.inClosed = false → hostOp .closeIn s = ({ s with inClosed := true }, .done))
    ∧ (s.inClosed = true → hostOp .closeIn s = (s, .refused))
    ∧ (∀ x q, s.outClosed = false → s.outFifo = x :: q → hostOp .popOut s = ({ s with outFifo := q }, .value x))
    ∧ (s.outClosed = true ∨ s.outFifo = [] → hostOp .popOut s = (s, .refused))
    ∧ (s.outClosed = false → hostOp .closeOut s = ({ s with outClosed := true }, .done))
    ∧ (s.outClosed = true → hostOp .closeOut s = (s, .refused))

/-- R32, R18, R14, R15, R16, R33: `H_READ_MEM` returns a cell of the tape in IDLE, HALTED and FAULTED, is refused otherwise, and
never changes the state; `FLAGS` has the layout of R18; the status readout shows `PC`, `RB`, `LEN`, `FPC`, `FVAL` and `FLAGS` as
they are, and `ST`, `HCAUSE` and `FCAUSE` by their numeric codes; `Value(n)` is shown exactly when `H_POP_OUT` is enabled and
would return `n`, and `NeedInput` exactly in AWAIT_INPUT (the spec's decisions D19, D23, D29). -/
def Obligations.HostReadout : Prop :=
  ∀ s : State,
    (∀ a : Int, hostOp (.readMem a) s =
      if (s.st = .idle ∨ s.st = .halted ∨ s.st = .faulted) ∧ 0 ≤ a ∧ a < (s.len : Int) then (s, .value (s.peek a.toNat))
      else (s, .refused))
    ∧ (s.flags.getLsbD 0 = s.inClosed ∧ s.flags.getLsbD 1 = s.outClosed ∧ s.flags.getLsbD 2 = s.outEos
      ∧ s.flags.getLsbD 3 = s.outDrop ∧ s.flags.getLsbD 4 = decide (s.st = .awaitInput)
      ∧ s.flags.getLsbD 5 = s.inFifo.isEmpty ∧ s.flags.getLsbD 6 = s.outFifo.isEmpty
      ∧ ∀ k, 7 ≤ k → s.flags.getLsbD k = false)
    ∧ (s.status.pc = s.pc ∧ s.status.rb = s.rb ∧ s.status.len = s.len ∧ s.status.fpc = s.fpc ∧ s.status.fval = s.fval
      ∧ s.status.flags = s.flags)
    ∧ ((s.status.st = 0 ↔ s.st = .idle) ∧ (s.status.st = 1 ↔ s.st = .running) ∧ (s.status.st = 2 ↔ s.st = .awaitInput)
      ∧ (s.status.st = 3 ↔ s.st = .awaitOutput) ∧ (s.status.st = 4 ↔ s.st = .halted)
      ∧ (s.status.st = 5 ↔ s.st = .faulted))
    ∧ ((s.status.hcause = 0 ↔ s.hcause = .none) ∧ (s.status.hcause = 1 ↔ s.hcause = .haltInstruction)
      ∧ (s.status.hcause = 2 ↔ s.hcause = .inputClosed))
    ∧ ((s.status.fcause = 0 ↔ s.fcause = .none) ∧ (s.status.fcause = 1 ↔ s.fcause = .decodeFault)
      ∧ (s.status.fcause = 2 ↔ s.fcause = .addressFault) ∧ (s.status.fcause = 3 ↔ s.fcause = .capacityFault))
    ∧ (∀ v, s.valueReady = some v ↔ HostOp.enabled .popOut s = true ∧ (hostOp .popOut s).2 = .value v)
    ∧ (s.needInput = true ↔ s.st = .awaitInput)

/-- R33, R127, R176: in states that meet the invariant, `Finished` is exactly HALTED with every word popped; a faulted core
never raises it (the spec's decision D29). -/
def Obligations.FinishedOnlyWhenHaltedAndDrained : Prop :=
  ∀ s : State, Inv s → (s.finished = true ↔ s.st = .halted ∧ s.outFifo = [])

/-! ### Several cores (spec/60_exceptions.md rules R190 to R195) -/

/-- R190: a step of one core, or a host operation on it, leaves every other core and the links as they are. -/
def Obligations.CoresShareNothing : Prop :=
  ∀ (y : System) (i j : Nat) (op : HostOp), j ≠ i →
    (y.move (.coreStep i)).cores[j]? = y.cores[j]? ∧ (y.move (.host i op)).cores[j]? = y.cores[j]?
      ∧ (y.move (.coreStep i)).links = y.links ∧ (y.move (.host i op)).links = y.links

/-- R191: *Transfer* moves the oldest word of the source's output to the tail of the destination's input, the two being
different cores or one and the same, when both ports are open and there is room; a link whose source has nothing to pop
moves nothing. What a transfer from a core to itself leaves (one move, the pop first) is the model's choice (log 12). -/
def Obligations.TransferMovesOneWord : Prop :=
  ∀ (y : System) (k : Nat) (l : Link) (a b : State), y.links[k]? = some l → y.cores[l.src]? = some a →
    y.cores[l.dst]? = some b →
    (∀ v q, a.outFifo = v :: q → a.outClosed = false → b.inClosed = false →
        Depth.hasRoom b.cfg.inDepth b.inFifo = true →
      (l.src ≠ l.dst →
        (y.move (.transfer k)).cores[l.src]? = some { a with outFifo := q }
          ∧ (y.move (.transfer k)).cores[l.dst]? = some { b with inFifo := b.inFifo ++ [v] })
      ∧ (l.src = l.dst →
        (y.move (.transfer k)).cores[l.src]? = some { a with outFifo := q, inFifo := a.inFifo ++ [v] })
      ∧ ∀ j, j ≠ l.src → j ≠ l.dst → (y.move (.transfer k)).cores[j]? = y.cores[j]?)
    ∧ (a.outFifo = [] ∨ a.outClosed = true ∨ b.inClosed = true ∨ Depth.hasRoom b.cfg.inDepth b.inFifo = false →
      y.move (.transfer k) = y)

/-- R191, R127, R193: *Close* closes the destination's input when the source has halted, its output is drained and that input is
open; in every other case it changes nothing: while the source has not halted (a faulted one never has), while a word is left in
its output, or where the input is closed already. The source is in a state that meets the invariant. (Links are the spec's
decision D24, no marker on a fault D15.) -/
def Obligations.LinkClosesOnlyAfterHalt : Prop :=
  ∀ (y : System) (k : Nat) (l : Link) (a b : State), y.links[k]? = some l → y.cores[l.src]? = some a →
    y.cores[l.dst]? = some b → Inv a →
    (a.st = .halted → a.outFifo = [] → b.inClosed = false →
      (y.move (.close k)).cores[l.dst]? = some { b with inClosed := true }
        ∧ ∀ j, j ≠ l.dst → (y.move (.close k)).cores[j]? = y.cores[j]?)
    ∧ (a.st ≠ .halted ∨ a.outFifo ≠ [] ∨ b.inClosed = true → y.move (.close k) = y)

/-- R195: a deadlocked system, every hold in it settled, makes no further progress under any schedule of core steps and link
moves: it is not a fault and not a final state, and nothing in it ever changes. What counts as deadlocked (link moves only, at
least one held core) is the model's choice: log 19. That a step of an ended core answers the same state, and that a held core
attempts its instruction again, are the model's reading (log 4, log 5, DEDUCED). -/
def Obligations.DeadlockIsPermanent : Prop :=
  ∀ (y : System) (ms : List Move), (∀ s ∈ y.cores, Settled s) → y.deadlocked = true →
    (∀ m ∈ ms, ∀ i op, m ≠ .host i op) → y.run ms = y
end

