-- ==== Sys2Proof/Laws/Memory.lean ====
section
/-! SUPPORT. The laws of the memory (spec/20_memory.md rules R45, R46): read after write, every other cell left alone, and
the canonical form kept by every operation. -/

namespace Sys2Proof.Machine

@[simp] theorem Memory.get_nil (a : Nat) : Memory.get [] a = 0 := rfl

theorem Memory.get_cons (k : Nat) (w : Word) (r : Memory) (a : Nat) :
    Memory.get ((k, w) :: r) a = if k = a then w else Memory.get r a := rfl

theorem Memory.get_erase (m : Memory) (a b : Nat) :
    Memory.get (Memory.erase m a) b = if b = a then 0 else Memory.get m b := by
  induction m with
  | nil => simp [Memory.erase]
  | cons c r ih =>
    obtain ⟨k, w⟩ := c
    by_cases hk : k = a
    · subst hk
      rw [Memory.erase, if_pos rfl, ih, Memory.get_cons]
      by_cases hb : b = k
      · simp [hb]
      · simp [hb, Ne.symm hb]
    · rw [Memory.erase, if_neg hk, Memory.get_cons, ih, Memory.get_cons]
      by_cases hb : b = a
      · subst hb; simp [hk]
      · simp [hb]

theorem Memory.get_insert (m : Memory) (a : Nat) (v : Word) (b : Nat) (h : Memory.get m a = 0)
    (hne : ∀ c ∈ m, c.1 ≠ a) :
    Memory.get (Memory.insert m a v) b = if b = a then v else Memory.get m b := by
  induction m with
  | nil =>
    rw [Memory.insert, Memory.get_cons]
    by_cases hb : b = a
    · simp [hb]
    · simp [hb, Ne.symm hb]
  | cons c r ih =>
    obtain ⟨k, w⟩ := c
    have hk : k ≠ a := hne (k, w) (by simp)
    have hr : ∀ c ∈ r, c.1 ≠ a := fun c hc => hne c (List.mem_cons_of_mem _ hc)
    rw [Memory.insert]
    split
    · rw [Memory.get_cons]
      by_cases hb : b = a
      · simp [hb]
      · simp [hb, Ne.symm hb]
    · rw [Memory.get_cons, Memory.get_cons, ih (by simpa [Memory.get_cons, hk] using h) hr]
      by_cases hkb : k = b
      · subst hkb; simp [hk]
      · simp [hkb]

theorem Memory.mem_erase {m : Memory} {a : Nat} {c : Nat × Word} (h : c ∈ Memory.erase m a) :
    c ∈ m ∧ c.1 ≠ a := by
  induction m with
  | nil => simp [Memory.erase] at h
  | cons d r ih =>
    obtain ⟨k, w⟩ := d
    by_cases hk : k = a
    · rw [Memory.erase, if_pos hk] at h
      exact ⟨List.mem_cons_of_mem _ (ih h).1, (ih h).2⟩
    · rw [Memory.erase, if_neg hk] at h
      rcases List.mem_cons.1 h with rfl | h'
      · exact ⟨by simp, hk⟩
      · exact ⟨List.mem_cons_of_mem _ (ih h').1, (ih h').2⟩

theorem Memory.mem_insert {m : Memory} {a : Nat} {v : Word} {c : Nat × Word}
    (h : c ∈ Memory.insert m a v) : c = (a, v) ∨ c ∈ m := by
  induction m with
  | nil => simpa [Memory.insert] using h
  | cons d r ih =>
    obtain ⟨k, w⟩ := d
    rw [Memory.insert] at h
    split at h
    · simpa using h
    · rcases List.mem_cons.1 h with rfl | h'
      · simp
      · rcases ih h' with h'' | h''
        · exact .inl h''
        · exact .inr (List.mem_cons_of_mem _ h'')

/-- R46, R8: what `MEM[a] <- v` does to every cell, whatever the memory. -/
theorem Memory.get_set (m : Memory) (a : Nat) (v : Word) (b : Nat) :
    Memory.get (Memory.set m a v) b = if b = a then v else Memory.get m b := by
  unfold Memory.set
  split
  · next hv => rw [Memory.get_erase, hv]
  · rw [Memory.get_insert _ _ _ _ (by rw [Memory.get_erase, if_pos rfl]) (fun c hc => (Memory.mem_erase hc).2),
      Memory.get_erase]
    by_cases hb : b = a <;> simp [hb]

theorem Memory.get_set_same (m : Memory) (a : Nat) (v : Word) : Memory.get (Memory.set m a v) a = v := by
  rw [Memory.get_set, if_pos rfl]

theorem Memory.get_set_other (m : Memory) (a : Nat) (v : Word) (b : Nat) (h : b ≠ a) :
    Memory.get (Memory.set m a v) b = Memory.get m b := by
  rw [Memory.get_set, if_neg h]

/-! ### The canonical form -/

theorem Memory.wf_nil : Memory.wf [] := by simp [Memory.wf]

theorem Memory.wf_erase {m : Memory} (h : Memory.wf m) (a : Nat) : Memory.wf (Memory.erase m a) := by
  induction m with
  | nil => exact h
  | cons c r ih =>
    obtain ⟨k, w⟩ := c
    obtain ⟨hp, hz⟩ := h
    have hr : Memory.wf r := ⟨(List.pairwise_cons.1 hp).2, fun c hc => hz c (List.mem_cons_of_mem _ hc)⟩
    by_cases hk : k = a
    · rw [Memory.erase, if_pos hk]; exact ih hr
    · rw [Memory.erase, if_neg hk]
      refine ⟨List.pairwise_cons.2 ⟨fun c hc => (List.pairwise_cons.1 hp).1 c (Memory.mem_erase hc).1, (ih hr).1⟩, ?_⟩
      intro c hc
      rcases List.mem_cons.1 hc with rfl | hc'
      · exact hz _ (by simp)
      · exact (ih hr).2 c hc'

theorem Memory.wf_insert {m : Memory} (h : Memory.wf m) {a : Nat} {v : Word} (hv : v ≠ 0)
    (hne : ∀ c ∈ m, c.1 ≠ a) : Memory.wf (Memory.insert m a v) := by
  induction m with
  | nil => simpa [Memory.insert, Memory.wf] using hv
  | cons c r ih =>
    obtain ⟨k, w⟩ := c
    obtain ⟨hp, hz⟩ := h
    have hp' := List.pairwise_cons.1 hp
    have hr : Memory.wf r := ⟨hp'.2, fun c hc => hz c (List.mem_cons_of_mem _ hc)⟩
    rw [Memory.insert]
    split
    · next hlt =>
      refine ⟨List.pairwise_cons.2 ⟨?_, hp⟩, ?_⟩
      · intro c hc
        rcases List.mem_cons.1 hc with rfl | hc'
        · exact hlt
        · exact Nat.lt_trans hlt (hp'.1 c hc')
      · intro c hc
        rcases List.mem_cons.1 hc with rfl | hc'
        · exact hv
        · exact hz c hc'
    · next hlt =>
      have hk : k ≠ a := hne (k, w) (by simp)
      have ih' := ih hr (fun c hc => hne c (List.mem_cons_of_mem _ hc))
      refine ⟨List.pairwise_cons.2 ⟨?_, ih'.1⟩, ?_⟩
      · intro c hc
        rcases Memory.mem_insert hc with rfl | hc'
        · show k < a; omega
        · exact hp'.1 c hc'
      · intro c hc
        rcases List.mem_cons.1 hc with rfl | hc'
        · exact hz _ (by simp)
        · exact ih'.2 c hc'

/-- Every write keeps the canonical form. -/
theorem Memory.wf_set {m : Memory} (h : Memory.wf m) (a : Nat) (v : Word) : Memory.wf (Memory.set m a v) := by
  unfold Memory.set
  split
  · exact Memory.wf_erase h a
  · next hv => exact Memory.wf_insert (Memory.wf_erase h a) hv (fun c hc => (Memory.mem_erase hc).2)

theorem Memory.get_ofImage (ws : List Word) (a b : Nat) :
    Memory.get (Memory.ofImage a ws) b = if a ≤ b then ws.getD (b - a) 0 else 0 := by
  induction ws generalizing a with
  | nil => simp [Memory.ofImage]
  | cons w ws ih =>
    have key : Memory.get (Memory.ofImage a (w :: ws)) b
        = if a = b then w else Memory.get (Memory.ofImage (a + 1) ws) b := by
      rw [Memory.ofImage]
      split
      · next hw =>
        by_cases hab : a = b
        · rw [ih, if_neg (by omega)]; simp [hab, hw]
        · simp [hab]
      · rw [Memory.get_cons]
    rw [key, ih]
    by_cases hab : a = b
    · simp [hab]
    · by_cases hle : a ≤ b
      · obtain ⟨n, hn⟩ : ∃ n, b - a = n + 1 := ⟨b - a - 1, by omega⟩
        rw [if_neg hab, if_pos (by omega), if_pos hle, hn, List.getD_cons_succ]
        congr 1; omega
      · rw [if_neg hab, if_neg (by omega), if_neg hle]

theorem Memory.ofImage_ge {ws : List Word} {a : Nat} {c : Nat × Word} (h : c ∈ Memory.ofImage a ws) :
    a ≤ c.1 := by
  induction ws generalizing a with
  | nil => simp [Memory.ofImage] at h
  | cons w ws ih =>
    rw [Memory.ofImage] at h
    split at h
    · have := ih h; omega
    · rcases List.mem_cons.1 h with rfl | h'
      · exact Nat.le_refl _
      · have := ih h'; omega

theorem Memory.wf_ofImage (ws : List Word) (a : Nat) : Memory.wf (Memory.ofImage a ws) := by
  induction ws generalizing a with
  | nil => exact Memory.wf_nil
  | cons w ws ih =>
    rw [Memory.ofImage]
    split
    · exact ih _
    · next hw =>
      refine ⟨List.pairwise_cons.2 ⟨fun c hc => Memory.ofImage_ge hc, (ih _).1⟩, ?_⟩
      intro c hc
      rcases List.mem_cons.1 hc with rfl | hc'
      · exact hw
      · exact (ih _).2 c hc'

theorem Memory.get_eq_zero_of_lt {m : Memory} {a : Nat} (h : ∀ c ∈ m, a < c.1) : Memory.get m a = 0 := by
  induction m with
  | nil => rfl
  | cons c r ih =>
    obtain ⟨k, w⟩ := c
    have hk : a < k := h (k, w) (by simp)
    rw [Memory.get_cons, if_neg (by omega), ih (fun c hc => h c (List.mem_cons_of_mem _ hc))]

/-- In canonical form a memory is determined by what it reads as: equal memories are equal data. -/
theorem Memory.ext_of_wf {m m' : Memory} (h : Memory.wf m) (h' : Memory.wf m')
    (hg : ∀ a, Memory.get m a = Memory.get m' a) : m = m' := by
  induction m generalizing m' with
  | nil =>
    cases m' with
    | nil => rfl
    | cons c r =>
      obtain ⟨k, w⟩ := c
      have := hg k
      rw [Memory.get_nil, Memory.get_cons, if_pos rfl] at this
      exact absurd this.symm (h'.2 (k, w) (by simp))
  | cons c r ih =>
    obtain ⟨k, w⟩ := c
    cases m' with
    | nil =>
      have := hg k
      rw [Memory.get_nil, Memory.get_cons, if_pos rfl] at this
      exact absurd this (h.2 (k, w) (by simp))
    | cons c' r' =>
      obtain ⟨k', w'⟩ := c'
      have hp := List.pairwise_cons.1 h.1
      have hp' := List.pairwise_cons.1 h'.1
      have hr : Memory.wf r := ⟨hp.2, fun c hc => h.2 c (List.mem_cons_of_mem _ hc)⟩
      have hr' : Memory.wf r' := ⟨hp'.2, fun c hc => h'.2 c (List.mem_cons_of_mem _ hc)⟩
      have hk : k = k' := by
        rcases Nat.lt_trichotomy k k' with hlt | heq | hgt
        · have := hg k
          rw [Memory.get_cons, if_pos rfl, Memory.get_cons, if_neg (by omega),
            Memory.get_eq_zero_of_lt (fun c hc => Nat.lt_trans hlt (hp'.1 c hc))] at this
          exact absurd this (h.2 (k, w) (by simp))
        · exact heq
        · have := hg k'
          rw [Memory.get_cons, if_neg (by omega), Memory.get_cons, if_pos rfl,
            Memory.get_eq_zero_of_lt (fun c hc => Nat.lt_trans hgt (hp.1 c hc))] at this
          exact absurd this.symm (h'.2 (k', w') (by simp))
      subst hk
      have hw : w = w' := by simpa [Memory.get_cons] using hg k
      subst hw
      congr 1
      refine ih hr hr' (fun a => ?_)
      by_cases ha : k = a
      · subst ha
        rw [Memory.get_eq_zero_of_lt hp.1, Memory.get_eq_zero_of_lt hp'.1]
      · simpa [Memory.get_cons, ha] using hg a

end Sys2Proof.Machine
end

