-- ==== Sys2Proof/Laws/State.lean ====
section
/-! SUPPORT. One lemma per field per named update of State, each true by unfolding the update once. Later proofs rewrite with
these and never unfold a record update. -/

namespace Sys2Proof.Machine

/-! ### `State.grow` -/

@[simp] theorem State.grow_cfg (s : State) (a : Nat) : (s.grow a).cfg = s.cfg := rfl
@[simp] theorem State.grow_mem (s : State) (a : Nat) : (s.grow a).mem = s.mem := rfl
@[simp] theorem State.grow_len (s : State) (a : Nat) : (s.grow a).len = max s.len (a + 1) := rfl
@[simp] theorem State.grow_pc (s : State) (a : Nat) : (s.grow a).pc = s.pc := rfl
@[simp] theorem State.grow_rb (s : State) (a : Nat) : (s.grow a).rb = s.rb := rfl
@[simp] theorem State.grow_st (s : State) (a : Nat) : (s.grow a).st = s.st := rfl
@[simp] theorem State.grow_hcause (s : State) (a : Nat) : (s.grow a).hcause = s.hcause := rfl
@[simp] theorem State.grow_fcause (s : State) (a : Nat) : (s.grow a).fcause = s.fcause := rfl
@[simp] theorem State.grow_fpc (s : State) (a : Nat) : (s.grow a).fpc = s.fpc := rfl
@[simp] theorem State.grow_fval (s : State) (a : Nat) : (s.grow a).fval = s.fval := rfl
@[simp] theorem State.grow_inFifo (s : State) (a : Nat) : (s.grow a).inFifo = s.inFifo := rfl
@[simp] theorem State.grow_inClosed (s : State) (a : Nat) : (s.grow a).inClosed = s.inClosed := rfl
@[simp] theorem State.grow_outFifo (s : State) (a : Nat) : (s.grow a).outFifo = s.outFifo := rfl
@[simp] theorem State.grow_outClosed (s : State) (a : Nat) : (s.grow a).outClosed = s.outClosed := rfl
@[simp] theorem State.grow_outEos (s : State) (a : Nat) : (s.grow a).outEos = s.outEos := rfl
@[simp] theorem State.grow_outDrop (s : State) (a : Nat) : (s.grow a).outDrop = s.outDrop := rfl
@[simp] theorem State.grow_outLog (s : State) (a : Nat) : (s.grow a).outLog = s.outLog := rfl

/-! ### `State.store` -/

@[simp] theorem State.store_cfg (s : State) (a : Nat) (v : Word) : (s.store a v).cfg = s.cfg := rfl
@[simp] theorem State.store_mem (s : State) (a : Nat) (v : Word) : (s.store a v).mem = Memory.set s.mem a v := rfl
@[simp] theorem State.store_len (s : State) (a : Nat) (v : Word) : (s.store a v).len = max s.len (a + 1) := rfl
@[simp] theorem State.store_pc (s : State) (a : Nat) (v : Word) : (s.store a v).pc = s.pc := rfl
@[simp] theorem State.store_rb (s : State) (a : Nat) (v : Word) : (s.store a v).rb = s.rb := rfl
@[simp] theorem State.store_st (s : State) (a : Nat) (v : Word) : (s.store a v).st = s.st := rfl
@[simp] theorem State.store_hcause (s : State) (a : Nat) (v : Word) : (s.store a v).hcause = s.hcause := rfl
@[simp] theorem State.store_fcause (s : State) (a : Nat) (v : Word) : (s.store a v).fcause = s.fcause := rfl
@[simp] theorem State.store_fpc (s : State) (a : Nat) (v : Word) : (s.store a v).fpc = s.fpc := rfl
@[simp] theorem State.store_fval (s : State) (a : Nat) (v : Word) : (s.store a v).fval = s.fval := rfl
@[simp] theorem State.store_inFifo (s : State) (a : Nat) (v : Word) : (s.store a v).inFifo = s.inFifo := rfl
@[simp] theorem State.store_inClosed (s : State) (a : Nat) (v : Word) : (s.store a v).inClosed = s.inClosed := rfl
@[simp] theorem State.store_outFifo (s : State) (a : Nat) (v : Word) : (s.store a v).outFifo = s.outFifo := rfl
@[simp] theorem State.store_outClosed (s : State) (a : Nat) (v : Word) : (s.store a v).outClosed = s.outClosed := rfl
@[simp] theorem State.store_outEos (s : State) (a : Nat) (v : Word) : (s.store a v).outEos = s.outEos := rfl
@[simp] theorem State.store_outDrop (s : State) (a : Nat) (v : Word) : (s.store a v).outDrop = s.outDrop := rfl
@[simp] theorem State.store_outLog (s : State) (a : Nat) (v : Word) : (s.store a v).outLog = s.outLog := rfl

/-! ### `State.enterHalted` -/

@[simp] theorem State.enterHalted_cfg (s : State) (c : HaltCause) : (s.enterHalted c).cfg = s.cfg := rfl
@[simp] theorem State.enterHalted_mem (s : State) (c : HaltCause) : (s.enterHalted c).mem = s.mem := rfl
@[simp] theorem State.enterHalted_len (s : State) (c : HaltCause) : (s.enterHalted c).len = s.len := rfl
@[simp] theorem State.enterHalted_pc (s : State) (c : HaltCause) : (s.enterHalted c).pc = s.pc := rfl
@[simp] theorem State.enterHalted_rb (s : State) (c : HaltCause) : (s.enterHalted c).rb = s.rb := rfl
@[simp] theorem State.enterHalted_st (s : State) (c : HaltCause) : (s.enterHalted c).st = .halted := rfl
@[simp] theorem State.enterHalted_hcause (s : State) (c : HaltCause) : (s.enterHalted c).hcause = c := rfl
@[simp] theorem State.enterHalted_fcause (s : State) (c : HaltCause) : (s.enterHalted c).fcause = s.fcause := rfl
@[simp] theorem State.enterHalted_fpc (s : State) (c : HaltCause) : (s.enterHalted c).fpc = s.fpc := rfl
@[simp] theorem State.enterHalted_fval (s : State) (c : HaltCause) : (s.enterHalted c).fval = s.fval := rfl
@[simp] theorem State.enterHalted_inFifo (s : State) (c : HaltCause) : (s.enterHalted c).inFifo = s.inFifo := rfl
@[simp] theorem State.enterHalted_inClosed (s : State) (c : HaltCause) : (s.enterHalted c).inClosed = s.inClosed := rfl
@[simp] theorem State.enterHalted_outFifo (s : State) (c : HaltCause) : (s.enterHalted c).outFifo = s.outFifo := rfl
@[simp] theorem State.enterHalted_outClosed (s : State) (c : HaltCause) : (s.enterHalted c).outClosed = s.outClosed := rfl
@[simp] theorem State.enterHalted_outEos (s : State) (c : HaltCause) : (s.enterHalted c).outEos = true := rfl
@[simp] theorem State.enterHalted_outDrop (s : State) (c : HaltCause) : (s.enterHalted c).outDrop = s.outDrop := rfl
@[simp] theorem State.enterHalted_outLog (s : State) (c : HaltCause) : (s.enterHalted c).outLog = s.outLog := rfl

/-! ### `State.hold` -/

@[simp] theorem State.hold_cfg (s : State) (x : ExecState) : (s.hold x).cfg = s.cfg := rfl
@[simp] theorem State.hold_mem (s : State) (x : ExecState) : (s.hold x).mem = s.mem := rfl
@[simp] theorem State.hold_len (s : State) (x : ExecState) : (s.hold x).len = s.len := rfl
@[simp] theorem State.hold_pc (s : State) (x : ExecState) : (s.hold x).pc = s.pc := rfl
@[simp] theorem State.hold_rb (s : State) (x : ExecState) : (s.hold x).rb = s.rb := rfl
@[simp] theorem State.hold_st (s : State) (x : ExecState) : (s.hold x).st = x := rfl
@[simp] theorem State.hold_hcause (s : State) (x : ExecState) : (s.hold x).hcause = s.hcause := rfl
@[simp] theorem State.hold_fcause (s : State) (x : ExecState) : (s.hold x).fcause = s.fcause := rfl
@[simp] theorem State.hold_fpc (s : State) (x : ExecState) : (s.hold x).fpc = s.fpc := rfl
@[simp] theorem State.hold_fval (s : State) (x : ExecState) : (s.hold x).fval = s.fval := rfl
@[simp] theorem State.hold_inFifo (s : State) (x : ExecState) : (s.hold x).inFifo = s.inFifo := rfl
@[simp] theorem State.hold_inClosed (s : State) (x : ExecState) : (s.hold x).inClosed = s.inClosed := rfl
@[simp] theorem State.hold_outFifo (s : State) (x : ExecState) : (s.hold x).outFifo = s.outFifo := rfl
@[simp] theorem State.hold_outClosed (s : State) (x : ExecState) : (s.hold x).outClosed = s.outClosed := rfl
@[simp] theorem State.hold_outEos (s : State) (x : ExecState) : (s.hold x).outEos = s.outEos := rfl
@[simp] theorem State.hold_outDrop (s : State) (x : ExecState) : (s.hold x).outDrop = s.outDrop := rfl
@[simp] theorem State.hold_outLog (s : State) (x : ExecState) : (s.hold x).outLog = s.outLog := rfl

/-! ### `State.complete` -/

@[simp] theorem State.complete_cfg (s : State) (n : Nat) : (s.complete n).cfg = s.cfg := rfl
@[simp] theorem State.complete_mem (s : State) (n : Nat) : (s.complete n).mem = s.mem := rfl
@[simp] theorem State.complete_len (s : State) (n : Nat) : (s.complete n).len = s.len := rfl
@[simp] theorem State.complete_pc (s : State) (n : Nat) : (s.complete n).pc = s.pc + BitVec.ofNat 64 n := rfl
@[simp] theorem State.complete_rb (s : State) (n : Nat) : (s.complete n).rb = s.rb := rfl
@[simp] theorem State.complete_st (s : State) (n : Nat) : (s.complete n).st = .running := rfl
@[simp] theorem State.complete_hcause (s : State) (n : Nat) : (s.complete n).hcause = s.hcause := rfl
@[simp] theorem State.complete_fcause (s : State) (n : Nat) : (s.complete n).fcause = s.fcause := rfl
@[simp] theorem State.complete_fpc (s : State) (n : Nat) : (s.complete n).fpc = s.fpc := rfl
@[simp] theorem State.complete_fval (s : State) (n : Nat) : (s.complete n).fval = s.fval := rfl
@[simp] theorem State.complete_inFifo (s : State) (n : Nat) : (s.complete n).inFifo = s.inFifo := rfl
@[simp] theorem State.complete_inClosed (s : State) (n : Nat) : (s.complete n).inClosed = s.inClosed := rfl
@[simp] theorem State.complete_outFifo (s : State) (n : Nat) : (s.complete n).outFifo = s.outFifo := rfl
@[simp] theorem State.complete_outClosed (s : State) (n : Nat) : (s.complete n).outClosed = s.outClosed := rfl
@[simp] theorem State.complete_outEos (s : State) (n : Nat) : (s.complete n).outEos = s.outEos := rfl
@[simp] theorem State.complete_outDrop (s : State) (n : Nat) : (s.complete n).outDrop = s.outDrop := rfl
@[simp] theorem State.complete_outLog (s : State) (n : Nat) : (s.complete n).outLog = s.outLog := rfl

/-! ### `State.jumpTo` -/

@[simp] theorem State.jumpTo_cfg (s : State) (b : Word) : (s.jumpTo b).cfg = s.cfg := rfl
@[simp] theorem State.jumpTo_mem (s : State) (b : Word) : (s.jumpTo b).mem = s.mem := rfl
@[simp] theorem State.jumpTo_len (s : State) (b : Word) : (s.jumpTo b).len = s.len := rfl
@[simp] theorem State.jumpTo_pc (s : State) (b : Word) : (s.jumpTo b).pc = b := rfl
@[simp] theorem State.jumpTo_rb (s : State) (b : Word) : (s.jumpTo b).rb = s.rb := rfl
@[simp] theorem State.jumpTo_st (s : State) (b : Word) : (s.jumpTo b).st = .running := rfl
@[simp] theorem State.jumpTo_hcause (s : State) (b : Word) : (s.jumpTo b).hcause = s.hcause := rfl
@[simp] theorem State.jumpTo_fcause (s : State) (b : Word) : (s.jumpTo b).fcause = s.fcause := rfl
@[simp] theorem State.jumpTo_fpc (s : State) (b : Word) : (s.jumpTo b).fpc = s.fpc := rfl
@[simp] theorem State.jumpTo_fval (s : State) (b : Word) : (s.jumpTo b).fval = s.fval := rfl
@[simp] theorem State.jumpTo_inFifo (s : State) (b : Word) : (s.jumpTo b).inFifo = s.inFifo := rfl
@[simp] theorem State.jumpTo_inClosed (s : State) (b : Word) : (s.jumpTo b).inClosed = s.inClosed := rfl
@[simp] theorem State.jumpTo_outFifo (s : State) (b : Word) : (s.jumpTo b).outFifo = s.outFifo := rfl
@[simp] theorem State.jumpTo_outClosed (s : State) (b : Word) : (s.jumpTo b).outClosed = s.outClosed := rfl
@[simp] theorem State.jumpTo_outEos (s : State) (b : Word) : (s.jumpTo b).outEos = s.outEos := rfl
@[simp] theorem State.jumpTo_outDrop (s : State) (b : Word) : (s.jumpTo b).outDrop = s.outDrop := rfl
@[simp] theorem State.jumpTo_outLog (s : State) (b : Word) : (s.jumpTo b).outLog = s.outLog := rfl

/-! ### `State.adjustBase` -/

@[simp] theorem State.adjustBase_cfg (s : State) (a : Word) : (s.adjustBase a).cfg = s.cfg := rfl
@[simp] theorem State.adjustBase_mem (s : State) (a : Word) : (s.adjustBase a).mem = s.mem := rfl
@[simp] theorem State.adjustBase_len (s : State) (a : Word) : (s.adjustBase a).len = s.len := rfl
@[simp] theorem State.adjustBase_pc (s : State) (a : Word) : (s.adjustBase a).pc = s.pc := rfl
@[simp] theorem State.adjustBase_rb (s : State) (a : Word) : (s.adjustBase a).rb = wrap64 (s.rb.toInt + a.toInt) := rfl
@[simp] theorem State.adjustBase_st (s : State) (a : Word) : (s.adjustBase a).st = s.st := rfl
@[simp] theorem State.adjustBase_hcause (s : State) (a : Word) : (s.adjustBase a).hcause = s.hcause := rfl
@[simp] theorem State.adjustBase_fcause (s : State) (a : Word) : (s.adjustBase a).fcause = s.fcause := rfl
@[simp] theorem State.adjustBase_fpc (s : State) (a : Word) : (s.adjustBase a).fpc = s.fpc := rfl
@[simp] theorem State.adjustBase_fval (s : State) (a : Word) : (s.adjustBase a).fval = s.fval := rfl
@[simp] theorem State.adjustBase_inFifo (s : State) (a : Word) : (s.adjustBase a).inFifo = s.inFifo := rfl
@[simp] theorem State.adjustBase_inClosed (s : State) (a : Word) : (s.adjustBase a).inClosed = s.inClosed := rfl
@[simp] theorem State.adjustBase_outFifo (s : State) (a : Word) : (s.adjustBase a).outFifo = s.outFifo := rfl
@[simp] theorem State.adjustBase_outClosed (s : State) (a : Word) : (s.adjustBase a).outClosed = s.outClosed := rfl
@[simp] theorem State.adjustBase_outEos (s : State) (a : Word) : (s.adjustBase a).outEos = s.outEos := rfl
@[simp] theorem State.adjustBase_outDrop (s : State) (a : Word) : (s.adjustBase a).outDrop = s.outDrop := rfl
@[simp] theorem State.adjustBase_outLog (s : State) (a : Word) : (s.adjustBase a).outLog = s.outLog := rfl

/-! ### `takeFault` -/

@[simp] theorem takeFault_cfg (f : Raised) (s : State) : (takeFault f s).cfg = s.cfg := rfl
@[simp] theorem takeFault_mem (f : Raised) (s : State) : (takeFault f s).mem = s.mem := rfl
@[simp] theorem takeFault_len (f : Raised) (s : State) : (takeFault f s).len = s.len := rfl
@[simp] theorem takeFault_pc (f : Raised) (s : State) : (takeFault f s).pc = s.pc := rfl
@[simp] theorem takeFault_rb (f : Raised) (s : State) : (takeFault f s).rb = s.rb := rfl
@[simp] theorem takeFault_st (f : Raised) (s : State) : (takeFault f s).st = .faulted := rfl
@[simp] theorem takeFault_hcause (f : Raised) (s : State) : (takeFault f s).hcause = s.hcause := rfl
@[simp] theorem takeFault_fcause (f : Raised) (s : State) : (takeFault f s).fcause = f.cause := rfl
@[simp] theorem takeFault_fpc (f : Raised) (s : State) : (takeFault f s).fpc = s.pc := rfl
@[simp] theorem takeFault_fval (f : Raised) (s : State) : (takeFault f s).fval = wrap64 f.info := rfl
@[simp] theorem takeFault_inFifo (f : Raised) (s : State) : (takeFault f s).inFifo = s.inFifo := rfl
@[simp] theorem takeFault_inClosed (f : Raised) (s : State) : (takeFault f s).inClosed = s.inClosed := rfl
@[simp] theorem takeFault_outFifo (f : Raised) (s : State) : (takeFault f s).outFifo = s.outFifo := rfl
@[simp] theorem takeFault_outClosed (f : Raised) (s : State) : (takeFault f s).outClosed = s.outClosed := rfl
@[simp] theorem takeFault_outEos (f : Raised) (s : State) : (takeFault f s).outEos = s.outEos := rfl
@[simp] theorem takeFault_outDrop (f : Raised) (s : State) : (takeFault f s).outDrop = s.outDrop := rfl
@[simp] theorem takeFault_outLog (f : Raised) (s : State) : (takeFault f s).outLog = s.outLog := rfl

/-! ### `State.resetWith` (R35) -/

@[simp] theorem State.resetWith_cfg (c : Config) : (State.resetWith c).cfg = c := rfl
@[simp] theorem State.resetWith_mem (c : Config) : (State.resetWith c).mem = [] := rfl
@[simp] theorem State.resetWith_len (c : Config) : (State.resetWith c).len = 0 := rfl
@[simp] theorem State.resetWith_pc (c : Config) : (State.resetWith c).pc = 0 := rfl
@[simp] theorem State.resetWith_rb (c : Config) : (State.resetWith c).rb = 0 := rfl
@[simp] theorem State.resetWith_st (c : Config) : (State.resetWith c).st = .idle := rfl
@[simp] theorem State.resetWith_hcause (c : Config) : (State.resetWith c).hcause = .none := rfl
@[simp] theorem State.resetWith_fcause (c : Config) : (State.resetWith c).fcause = .none := rfl
@[simp] theorem State.resetWith_fpc (c : Config) : (State.resetWith c).fpc = 0 := rfl
@[simp] theorem State.resetWith_fval (c : Config) : (State.resetWith c).fval = 0 := rfl
@[simp] theorem State.resetWith_inFifo (c : Config) : (State.resetWith c).inFifo = [] := rfl
@[simp] theorem State.resetWith_inClosed (c : Config) : (State.resetWith c).inClosed = false := rfl
@[simp] theorem State.resetWith_outFifo (c : Config) : (State.resetWith c).outFifo = [] := rfl
@[simp] theorem State.resetWith_outClosed (c : Config) : (State.resetWith c).outClosed = false := rfl
@[simp] theorem State.resetWith_outEos (c : Config) : (State.resetWith c).outEos = false := rfl
@[simp] theorem State.resetWith_outDrop (c : Config) : (State.resetWith c).outDrop = false := rfl
@[simp] theorem State.resetWith_outLog (c : Config) : (State.resetWith c).outLog = [] := rfl

end Sys2Proof.Machine
end

