-- ==== Sys2Proof/Laws/Ops.lean ====
section
/-! SUPPORT. What the shared operations of Machine/Ops.lean can do, said once each: the phases, `CheckAddr` (spec/20_memory.md
rule R43), `MemRead` (R45), `MemWrite` (R46), write-back and the end of a step. -/

namespace Sys2Proof.Machine

/-! ### Phases -/

@[simp] theorem Phase.andThen_ok {α β : Type} (v : α) (s : State) (k : α → State → Phase β) :
    (Phase.ok v s).andThen k = k v s := rfl

@[simp] theorem Phase.andThen_raised {α β : Type} (f : Raised) (s : State) (k : α → State → Phase β) :
    (Phase.raised f s : Phase α).andThen k = .raised f s := rfl

theorem Phase.andThen_eq_ok {α β : Type} {p : Phase α} {k : α → State → Phase β} {w : β} {t : State} :
    p.andThen k = .ok w t ↔ ∃ v u, p = .ok v u ∧ k v u = .ok w t := by
  cases p <;> simp

theorem Phase.andThen_eq_raised {α β : Type} {p : Phase α} {k : α → State → Phase β} {f : Raised} {t : State} :
    p.andThen k = .raised f t ↔ p = .raised f t ∨ ∃ v u, p = .ok v u ∧ k v u = .raised f t := by
  cases p <;> simp

/-! ### `wrap64` (R8) -/

theorem wrap64_toInt (w : Word) : wrap64 w.toInt = w := BitVec.ofInt_toInt

/-- R8: `wrap64(z) = ((z + 2^63) mod 2^64) - 2^63`. -/
theorem toInt_wrap64 (z : Int) : (wrap64 z).toInt = (z + 2 ^ 63) % 2 ^ 64 - 2 ^ 63 := by
  rw [wrap64, BitVec.toInt_ofInt, Int.bmod_def]
  omega

/-! ### `CheckAddr` (R43) -/

theorem checkAddr_eq_ok {cap : Nat} {a : Int} {n : Nat} :
    checkAddr cap a = .ok n ↔ 0 ≤ a ∧ a < (cap : Int) ∧ n = a.toNat := by
  unfold checkAddr
  split
  · simp; omega
  · split
    · simp; omega
    · simp; omega

theorem checkAddr_eq_error {cap : Nat} {a : Int} {f : Raised} :
    checkAddr cap a = .error f ↔
      (a < 0 ∧ f = .addressFault a) ∨ (0 ≤ a ∧ (cap : Int) ≤ a ∧ f = .capacityFault a) := by
  unfold checkAddr
  split
  · next h =>
    simp only [Except.error.injEq]
    constructor
    · rintro rfl; exact .inl ⟨h, rfl⟩
    · rintro (⟨-, rfl⟩ | ⟨h0, -⟩)
      · rfl
      · omega
  · next h =>
    split
    · next hc =>
      simp only [Except.error.injEq]
      constructor
      · rintro rfl; exact .inr ⟨by omega, hc, rfl⟩
      · rintro (⟨h0, -⟩ | ⟨-, -, rfl⟩)
        · omega
        · rfl
    · next hc =>
      simp only [reduceCtorEq, false_iff]
      rintro (⟨h0, -⟩ | ⟨-, h1, -⟩) <;> omega

theorem checkAddr_of_lt {cap n : Nat} (h : n < cap) : checkAddr cap (n : Int) = .ok n :=
  checkAddr_eq_ok.2 ⟨by omega, by omega, by omega⟩

/-! ### `MemRead` and `MemWrite` (R45, R46) -/

theorem memRead_eq_ok {a : Int} {s t : State} {v : Word} :
    memRead a s = .ok v t ↔
      0 ≤ a ∧ a < (s.cfg.memCap : Int) ∧ v = s.peek a.toNat ∧ t = s.grow a.toNat := by
  unfold memRead
  cases h : checkAddr s.cfg.memCap a with
  | error f =>
    simp only [reduceCtorEq, false_iff]
    rintro ⟨h0, h1, -⟩
    rw [checkAddr_eq_ok.2 ⟨h0, h1, rfl⟩] at h
    cases h
  | ok n =>
    obtain ⟨h0, h1, rfl⟩ := checkAddr_eq_ok.1 h
    simp only [Phase.ok.injEq]
    constructor
    · rintro ⟨rfl, rfl⟩; exact ⟨h0, h1, rfl, rfl⟩
    · rintro ⟨-, -, rfl, rfl⟩; exact ⟨rfl, rfl⟩

theorem memRead_eq_raised {a : Int} {s t : State} {f : Raised} :
    memRead a s = .raised f t ↔
      t = s ∧ ((a < 0 ∧ f = .addressFault a) ∨ (0 ≤ a ∧ (s.cfg.memCap : Int) ≤ a ∧ f = .capacityFault a)) := by
  unfold memRead
  cases h : checkAddr s.cfg.memCap a with
  | error g =>
    simp only [Phase.raised.injEq]
    constructor
    · rintro ⟨rfl, rfl⟩; exact ⟨rfl, checkAddr_eq_error.1 h⟩
    · rintro ⟨rfl, hf⟩
      rw [checkAddr_eq_error.2 hf] at h
      exact ⟨by injection h with h; exact h.symm, rfl⟩
  | ok n =>
    simp only [reduceCtorEq, false_iff]
    rintro ⟨-, hf⟩
    rw [checkAddr_eq_error.2 hf] at h
    cases h

theorem memRead_of_lt {n : Nat} {s : State} (h : n < s.cfg.memCap) :
    memRead (n : Int) s = .ok (s.peek n) (s.grow n) :=
  memRead_eq_ok.2 ⟨by omega, by omega, by simp, by simp⟩

theorem memWrite_of_lt {n : Nat} {v : Word} {s : State} (h : n < s.cfg.memCap) :
    memWrite (n : Int) v s = .ok () (s.store n v) := by
  rw [memWrite, checkAddr_of_lt h]

/-! ### What reads and growth leave alone -/

@[simp] theorem State.peek_grow (s : State) (a b : Nat) : (s.grow a).peek b = s.peek b := rfl

theorem State.peek_store (s : State) (a : Nat) (v : Word) (b : Nat) :
    (s.store a v).peek b = if b = a then v else s.peek b := Memory.get_set _ _ _ _

/-- A memory write keeps the canonical form (and a read changes no cell at all). -/
theorem State.store_wf {s : State} (h : Memory.wf s.mem) (a : Nat) (v : Word) : Memory.wf (s.store a v).mem :=
  Memory.wf_set h a v

/-! ### Write-back and the end of a step -/

/-- R98: the write-back to a checked address cannot raise. -/
theorem writeBack_of_lt {k n : Nat} {v : Word} {s : State} (h : n < s.cfg.memCap) :
    writeBack k (n : Int) v s = .ok () ((s.store n v).complete k) := by
  rw [writeBack, memWrite_of_lt h, Phase.andThen_ok]

@[simp] theorem finish_ok (u : Unit) (s : State) : finish (.ok u s) = .next s := rfl

@[simp] theorem finish_raised (f : Raised) (s : State) : finish (.raised f s) = .next (takeFault f s) := rfl

theorem finish_eq_next {p : Phase Unit} {t : State} :
    finish p = .next t ↔ p = .ok () t ∨ ∃ f u, p = .raised f u ∧ t = takeFault f u := by
  cases p with
  | ok v s => simp
  | raised f s =>
    simp only [finish_raised, Host.Outcome.next.injEq, reduceCtorEq, Phase.raised.injEq, false_or]
    constructor
    · rintro rfl; exact ⟨f, s, ⟨rfl, rfl⟩, rfl⟩
    · rintro ⟨g, u, ⟨rfl, rfl⟩, rfl⟩; rfl

end Sys2Proof.Machine
end

