-- ==== Sys2Proof/Laws/Operands.lean ====
section
/-! SUPPORT. The RESOLVE phase said once (spec/40_step_fsm.md rules R95 to R97): when each parameter resolves, to what, and
what the state is then; and when it raises. A resolved or raised parameter changes nothing but `LEN`. -/

namespace Sys2Proof.Machine

/-- The state with another tape length: all that a read can change. -/
def State.withLen (s : State) (n : Nat) : State := { s with len := n }

@[simp] theorem State.withLen_len (s : State) (n : Nat) : (s.withLen n).len = n := rfl
@[simp] theorem State.withLen_cfg (s : State) (n : Nat) : (s.withLen n).cfg = s.cfg := rfl
@[simp] theorem State.withLen_mem (s : State) (n : Nat) : (s.withLen n).mem = s.mem := rfl
@[simp] theorem State.withLen_pc (s : State) (n : Nat) : (s.withLen n).pc = s.pc := rfl
@[simp] theorem State.withLen_rb (s : State) (n : Nat) : (s.withLen n).rb = s.rb := rfl
@[simp] theorem State.withLen_st (s : State) (n : Nat) : (s.withLen n).st = s.st := rfl
@[simp] theorem State.withLen_hcause (s : State) (n : Nat) : (s.withLen n).hcause = s.hcause := rfl
@[simp] theorem State.withLen_fcause (s : State) (n : Nat) : (s.withLen n).fcause = s.fcause := rfl
@[simp] theorem State.withLen_fpc (s : State) (n : Nat) : (s.withLen n).fpc = s.fpc := rfl
@[simp] theorem State.withLen_fval (s : State) (n : Nat) : (s.withLen n).fval = s.fval := rfl
@[simp] theorem State.withLen_inFifo (s : State) (n : Nat) : (s.withLen n).inFifo = s.inFifo := rfl
@[simp] theorem State.withLen_inClosed (s : State) (n : Nat) : (s.withLen n).inClosed = s.inClosed := rfl
@[simp] theorem State.withLen_outFifo (s : State) (n : Nat) : (s.withLen n).outFifo = s.outFifo := rfl
@[simp] theorem State.withLen_outClosed (s : State) (n : Nat) : (s.withLen n).outClosed = s.outClosed := rfl
@[simp] theorem State.withLen_outEos (s : State) (n : Nat) : (s.withLen n).outEos = s.outEos := rfl
@[simp] theorem State.withLen_outDrop (s : State) (n : Nat) : (s.withLen n).outDrop = s.outDrop := rfl
@[simp] theorem State.withLen_outLog (s : State) (n : Nat) : (s.withLen n).outLog = s.outLog := rfl
@[simp] theorem State.withLen_peek (s : State) (n a : Nat) : (s.withLen n).peek a = s.peek a := rfl
@[simp] theorem State.withLen_withLen (s : State) (m n : Nat) : (s.withLen m).withLen n = s.withLen n := rfl
@[simp] theorem State.withLen_self (s : State) : s.withLen s.len = s := rfl

theorem State.grow_eq_withLen (s : State) (a : Nat) : s.grow a = s.withLen (max s.len (a + 1)) := rfl

/-! ### The terms of Safety.lean do not read `LEN` -/

@[simp] theorem operandWord_withLen (s : State) (n i : Nat) : operandWord (s.withLen n) i = operandWord s i := rfl
@[simp] theorem paramAddr_withLen (s : State) (n i : Nat) (m : Mode) :
    paramAddr (s.withLen n) i m = paramAddr s i m := rfl
@[simp] theorem srcValue_withLen (s : State) (n i : Nat) (m : Mode) :
    srcValue (s.withLen n) i m = srcValue s i m := rfl
@[simp] theorem srcReady_withLen (s : State) (n i : Nat) (m : Mode) :
    SrcReady (s.withLen n) i m ↔ SrcReady s i m := Iff.rfl
@[simp] theorem dstReady_withLen (s : State) (n i : Nat) (m : Mode) (d : Nat) :
    DstReady (s.withLen n) i m d ↔ DstReady s i m d := Iff.rfl
@[simp] theorem srcCells_withLen (s : State) (n i : Nat) (m : Mode) :
    srcCells (s.withLen n) i m = srcCells s i m := rfl
@[simp] theorem paramFault_withLen (s : State) (n i : Nat) (m : Mode) :
    paramFault (s.withLen n) i m = paramFault s i m := rfl

@[simp] theorem lengthAfter_nil (n : Nat) : lengthAfter n [] = n := rfl
@[simp] theorem lengthAfter_cons (n a : Nat) (as : List Nat) :
    lengthAfter n (a :: as) = lengthAfter (max n (a + 1)) as := rfl
theorem lengthAfter_append (n : Nat) (as bs : List Nat) :
    lengthAfter n (as ++ bs) = lengthAfter (lengthAfter n as) bs := by
  simp [lengthAfter, List.foldl_append]

theorem le_lengthAfter (n : Nat) (as : List Nat) : n ≤ lengthAfter n as := by
  induction as generalizing n with
  | nil => exact Nat.le_refl n
  | cons a as ih => exact Nat.le_trans (Nat.le_max_left _ _) (ih _)

/-- R34 (a): accesses below a bound keep the length below it. -/
theorem lengthAfter_le {n k : Nat} {as : List Nat} (hn : n ≤ k) (h : ∀ a ∈ as, a < k) : lengthAfter n as ≤ k := by
  induction as generalizing n with
  | nil => exact hn
  | cons a as ih =>
    have ha := h a (by simp)
    exact ih (show max n (a + 1) ≤ k by omega) (fun b hb => h b (List.mem_cons_of_mem _ hb))

/-- Accesses already on the tape grow nothing (R92). -/
theorem lengthAfter_lengthAfter (n : Nat) (as : List Nat) : lengthAfter (lengthAfter n as) as = lengthAfter n as := by
  have mono : ∀ (bs : List Nat) {x y : Nat}, x ≤ y → lengthAfter x bs ≤ lengthAfter y bs := by
    intro bs
    induction bs with
    | nil => exact fun h => h
    | cons b bs ih => intro x y h; exact ih (show max x (b + 1) ≤ max y (b + 1) by omega)
  have fixed : ∀ (bs : List Nat) (m : Nat), (∀ b ∈ bs, b + 1 ≤ m) → lengthAfter m bs = m := by
    intro bs
    induction bs with
    | nil => intro m _; rfl
    | cons b bs ih =>
      intro m h
      have hb := h b (by simp)
      rw [lengthAfter_cons, Nat.max_eq_left hb]
      exact ih m (fun c hc => h c (List.mem_cons_of_mem _ hc))
  have reach : ∀ (bs : List Nat) (m : Nat), ∀ b ∈ bs, b + 1 ≤ lengthAfter m bs := by
    intro bs
    induction bs with
    | nil => intro m b hb; simp at hb
    | cons c cs ih =>
      intro m b hb
      rcases List.mem_cons.1 hb with rfl | hb'
      · exact Nat.le_trans (Nat.le_max_right m (b + 1)) (le_lengthAfter _ _)
      · exact ih _ b hb'
  exact fixed as _ (reach as n)

/-! ### Operand words -/

theorem fetchOperand_eq_ok {i : Nat} {s t : State} {p : Word} :
    fetchOperand i s = .ok p t ↔
      s.pc.toNat + i < s.cfg.memCap ∧ p = operandWord s i ∧ t = s.grow (s.pc.toNat + i) := by
  rw [fetchOperand, memRead_eq_ok]
  simp only [Int.toNat_natCast, operandWord]
  constructor
  · rintro ⟨-, h, h'⟩; exact ⟨by omega, h'⟩
  · rintro ⟨h, h'⟩; exact ⟨by omega, by omega, h'⟩

theorem fetchOperand_eq_raised {i : Nat} {s t : State} {f : Raised} :
    fetchOperand i s = .raised f t ↔
      t = s ∧ s.cfg.memCap ≤ s.pc.toNat + i ∧ f = .capacityFault (s.pc.toNat + i : Nat) := by
  rw [fetchOperand, memRead_eq_raised]
  constructor
  · rintro ⟨rfl, ⟨h, -⟩ | ⟨-, h, rfl⟩⟩
    · omega
    · exact ⟨rfl, by omega, rfl⟩
  · rintro ⟨rfl, h, rfl⟩
    exact ⟨rfl, .inr ⟨by omega, by omega, rfl⟩⟩

/-- A phase after the fetch of an operand word that raises: the fetch did, or the phase did. -/
theorem fetchOperand_andThen_raised {α : Type} {i : Nat} {s t : State} {f : Raised} {k : Word → State → Phase α} :
    (fetchOperand i s).andThen k = .raised f t ↔
      if s.cfg.memCap ≤ s.pc.toNat + i then f = .capacityFault (s.pc.toNat + i : Nat) ∧ t = s
      else k (operandWord s i) (s.grow (s.pc.toNat + i)) = .raised f t := by
  split
  · next hc =>
    rw [fetchOperand_eq_raised.2 ⟨rfl, hc, rfl⟩]
    simp [eq_comm]
  · next hc => rw [fetchOperand_eq_ok.2 ⟨by omega, rfl, rfl⟩, Phase.andThen_ok]

theorem checkAddr_eq_addrFault (s : State) (a : Int) :
    checkAddr s.cfg.memCap a = match addrFault s a with
      | some f => .error f
      | none => .ok a.toNat := by
  unfold checkAddr addrFault
  split
  · rfl
  · split <;> rfl

theorem memRead_eq_raised_addrFault {a : Int} {s t : State} {f : Raised} :
    memRead a s = .raised f t ↔ addrFault s a = some f ∧ t = s := by
  rw [memRead, checkAddr_eq_addrFault]
  cases addrFault s a <;> simp [eq_comm]

/-! ### Source parameters (R95, R97) -/

/-- When a source parameter resolves: to its value, having grown the tape over the cells it read. -/
theorem srcParam_eq_ok {i : Nat} {m : Mode} {s t : State} {v : Word} :
    srcParam i m s = .ok v t ↔
      SrcReady s i m ∧ v = srcValue s i m ∧ t = s.withLen (lengthAfter s.len (srcCells s i m)) := by
  rw [srcParam, Phase.andThen_eq_ok]
  constructor
  · rintro ⟨p, u, hp, hr⟩
    obtain ⟨hf, rfl, rfl⟩ := fetchOperand_eq_ok.1 hp
    unfold resolveSrc at hr
    have hpa : paramAddr s i m = effAddr m (operandWord s i) (s.grow (s.pc.toNat + i)).rb := rfl
    cases ha : effAddr m (operandWord s i) (s.grow (s.pc.toNat + i)).rb with
    | none =>
      rw [ha] at hr hpa
      obtain ⟨rfl, rfl⟩ := Phase.ok.injEq .. ▸ hr
      exact ⟨⟨hf, by simp [hpa]⟩, by simp [srcValue, hpa], by simp [srcCells, hpa, State.grow_eq_withLen]⟩
    | some a =>
      rw [ha] at hr hpa
      obtain ⟨h0, h1, rfl, rfl⟩ := memRead_eq_ok.1 hr
      refine ⟨⟨hf, fun b hb => ?_⟩, by simp [srcValue, hpa], by simp [srcCells, hpa, State.grow_eq_withLen]⟩
      rw [hpa] at hb
      cases hb
      exact ⟨h0, h1⟩
  · rintro ⟨⟨hf, hv⟩, rfl, rfl⟩
    refine ⟨operandWord s i, s.grow (s.pc.toNat + i), fetchOperand_eq_ok.2 ⟨hf, rfl, rfl⟩, ?_⟩
    have hpa : effAddr m (operandWord s i) (s.grow (s.pc.toNat + i)).rb = paramAddr s i m := rfl
    unfold resolveSrc
    rw [hpa]
    cases ha : paramAddr s i m with
    | none => simp [srcValue, srcCells, ha, State.grow_eq_withLen]
    | some a =>
      refine memRead_eq_ok.2 ⟨(hv a ha).1, (hv a ha).2, by simp [srcValue, ha], ?_⟩
      simp [srcCells, ha, State.grow_eq_withLen]

/-- Every cell a ready source parameter reads is below `MEM_CAP`. -/
theorem SrcReady.cells_lt {s : State} {i : Nat} {m : Mode} (h : SrcReady s i m) : ∀ a ∈ srcCells s i m, a < s.cfg.memCap := by
  intro a ha
  unfold srcCells at ha
  split at ha
  · simp only [List.mem_singleton] at ha; subst ha; exact h.1
  · next b hb =>
    have hv := h.2 b hb
    simp only [List.mem_cons, List.not_mem_nil, or_false] at ha
    rcases ha with rfl | rfl
    · exact h.1
    · omega

/-- Reading a ready source parameter keeps `LEN` within `MEM_CAP`. -/
theorem SrcReady.lengthAfter_le {s : State} {i n : Nat} {m : Mode} (h : SrcReady s i m) :
    lengthAfter n (srcCells s i m) ≤ max n s.cfg.memCap :=
  Sys2Proof.Machine.lengthAfter_le (Nat.le_max_left _ _) fun a ha => Nat.lt_of_lt_of_le (h.cells_lt a ha) (Nat.le_max_right _ _)

theorem lengthAfter_fetched_le (s : State) (n i : Nat) :
    lengthAfter n (if s.cfg.memCap ≤ s.pc.toNat + i then [] else [s.pc.toNat + i]) ≤ max n s.cfg.memCap := by
  split
  · exact Nat.le_max_left _ _
  · simp only [lengthAfter_cons, lengthAfter_nil]; omega

theorem paramFault_eq_none {s : State} {i : Nat} {m : Mode} : paramFault s i m = none ↔ SrcReady s i m := by
  unfold paramFault SrcReady
  split
  · next h => simp; omega
  · next h =>
    cases ha : paramAddr s i m with
    | none => simp; omega
    | some a =>
      simp only [Option.bind_some, addrFault, Option.some.injEq, forall_eq']
      split
      · simp; omega
      · split
        · simp; omega
        · simp; omega

/-- When a source parameter raises: with the fault of R175 for it; nothing but `LEN` has changed. -/
theorem srcParam_eq_raised {i : Nat} {m : Mode} {s t : State} {f : Raised} :
    srcParam i m s = .raised f t ↔
      paramFault s i m = some f ∧
        t = s.withLen (lengthAfter s.len (if s.cfg.memCap ≤ s.pc.toNat + i then [] else [s.pc.toNat + i])) := by
  have hpa : effAddr m (operandWord s i) (s.grow (s.pc.toNat + i)).rb = paramAddr s i m := rfl
  rw [srcParam, fetchOperand_andThen_raised, paramFault]
  by_cases hc : s.cfg.memCap ≤ s.pc.toNat + i
  · simp [hc, eq_comm]
  · rw [if_neg hc, if_neg hc, if_neg hc, resolveSrc, hpa]
    cases paramAddr s i m with
    | none => simp
    | some a => exact memRead_eq_raised_addrFault

/-! ### Destination parameters (R96, R97) -/

/-- When a destination parameter resolves: to its checked address; the destination cell is neither read nor grown. -/
theorem dstParam_eq_ok {i : Nat} {m : Mode} {s t : State} {d : Nat} :
    dstParam i m s = .ok d t ↔
      DstReady s i m d ∧ t = s.withLen (lengthAfter s.len [s.pc.toNat + i]) := by
  rw [dstParam, Phase.andThen_eq_ok]
  have hpa : effAddr m (operandWord s i) (s.grow (s.pc.toNat + i)).rb = paramAddr s i m := rfl
  constructor
  · rintro ⟨p, u, hp, hr⟩
    obtain ⟨hf, rfl, rfl⟩ := fetchOperand_eq_ok.1 hp
    unfold resolveDst at hr
    rw [hpa] at hr
    cases ha : paramAddr s i m with
    | none => rw [ha] at hr; cases hr
    | some a =>
      rw [ha] at hr
      dsimp only at hr
      cases hc : checkAddr (s.grow (s.pc.toNat + i)).cfg.memCap a with
      | error f => rw [hc] at hr; cases hr
      | ok n =>
        rw [hc] at hr
        obtain ⟨rfl, rfl⟩ := Phase.ok.injEq .. ▸ hr
        obtain ⟨h0, h1, rfl⟩ := checkAddr_eq_ok.1 hc
        have h1' : a < (s.cfg.memCap : Int) := h1
        exact ⟨⟨hf, by rw [ha]; congr 1; omega, by omega⟩, rfl⟩
  · rintro ⟨⟨hf, ha, hd⟩, rfl⟩
    refine ⟨operandWord s i, s.grow (s.pc.toNat + i), fetchOperand_eq_ok.2 ⟨hf, rfl, rfl⟩, ?_⟩
    unfold resolveDst
    rw [hpa, ha]
    dsimp only
    rw [State.grow_cfg, checkAddr_of_lt hd]
    rfl

/-- When a destination parameter raises, in a mode a destination may have: with the fault of R175 for it. -/
theorem dstParam_eq_raised {i : Nat} {m : Mode} {s t : State} {f : Raised} (hm : m ≠ .immediate) :
    dstParam i m s = .raised f t ↔
      paramFault s i m = some f ∧
        t = s.withLen (lengthAfter s.len (if s.cfg.memCap ≤ s.pc.toNat + i then [] else [s.pc.toNat + i])) := by
  have hpa : effAddr m (operandWord s i) (s.grow (s.pc.toNat + i)).rb = paramAddr s i m := rfl
  have hsome : ∃ a, paramAddr s i m = some a := by
    cases m with
    | immediate => exact absurd rfl hm
    | position => exact ⟨_, rfl⟩
    | relative => exact ⟨_, rfl⟩
  rw [dstParam, fetchOperand_andThen_raised, paramFault]
  by_cases hc : s.cfg.memCap ≤ s.pc.toNat + i
  · simp [hc, eq_comm]
  · rw [if_neg hc, if_neg hc, if_neg hc, resolveDst, hpa]
    obtain ⟨a, ha⟩ := hsome
    rw [ha, Option.bind_some]
    dsimp only
    rw [State.grow_cfg, checkAddr_eq_addrFault]
    cases addrFault s a <;> simp [eq_comm, State.grow_eq_withLen]

/-- Any parameter that raises has changed nothing but `LEN`. -/
theorem dstParam_raised_withLen {i : Nat} {m : Mode} {s t : State} {f : Raised} (h : dstParam i m s = .raised f t) :
    ∃ n, s.len ≤ n ∧ n ≤ max s.len s.cfg.memCap ∧ t = s.withLen n := by
  rw [dstParam, fetchOperand_andThen_raised] at h
  split at h
  · exact ⟨_, Nat.le_refl _, Nat.le_max_left _ _, h.2⟩
  · next hc =>
    have ht : t = s.grow (s.pc.toNat + i) := by
      unfold resolveDst at h
      split at h
      · injection h with _ h; exact h.symm
      · split at h
        · injection h with _ h; exact h.symm
        · cases h
    exact ⟨_, Nat.le_max_left _ _, by omega, ht⟩

/-! ### The parameter lists of the formats (R60, R97) -/

theorem resolveSS_eq_ok {m1 m2 : Mode} {s t : State} {ab : Word × Word} :
    resolveSS m1 m2 s = .ok ab t ↔
      SrcReady s 1 m1 ∧ SrcReady s 2 m2 ∧ ab = (srcValue s 1 m1, srcValue s 2 m2) ∧
        t = s.withLen (lengthAfter s.len (srcCells s 1 m1 ++ srcCells s 2 m2)) := by
  simp only [resolveSS, Phase.andThen_eq_ok, srcParam_eq_ok, Phase.ok.injEq, lengthAfter_append]
  constructor
  · rintro ⟨v, u, ⟨h1, rfl, rfl⟩, w, x, ⟨h2, rfl, rfl⟩, rfl, rfl⟩
    exact ⟨h1, h2, rfl, rfl⟩
  · rintro ⟨h1, h2, rfl, rfl⟩
    exact ⟨_, _, ⟨h1, rfl, rfl⟩, _, _, ⟨h2, rfl, rfl⟩, rfl, rfl⟩

theorem resolveSSD_eq_ok {m1 m2 m3 : Mode} {s t : State} {r : Word × Word × Nat} :
    resolveSSD m1 m2 m3 s = .ok r t ↔
      SrcReady s 1 m1 ∧ SrcReady s 2 m2 ∧ DstReady s 3 m3 r.2.2 ∧
        r = (srcValue s 1 m1, srcValue s 2 m2, r.2.2) ∧
        t = s.withLen (lengthAfter s.len (srcCells s 1 m1 ++ srcCells s 2 m2 ++ [s.pc.toNat + 3])) := by
  simp only [resolveSSD, Phase.andThen_eq_ok, resolveSS_eq_ok, dstParam_eq_ok, Phase.ok.injEq]
  constructor
  · rintro ⟨ab, u, ⟨h1, h2, rfl, rfl⟩, d, x, ⟨h3, rfl⟩, rfl, rfl⟩
    refine ⟨h1, h2, h3, rfl, ?_⟩
    rw [lengthAfter_append _ (srcCells s 1 m1 ++ srcCells s 2 m2)]
    rfl
  · rintro ⟨h1, h2, h3, hr, rfl⟩
    refine ⟨_, _, ⟨h1, h2, rfl, rfl⟩, r.2.2, _, ⟨h3, rfl⟩, hr.symm, ?_⟩
    rw [lengthAfter_append _ (srcCells s 1 m1 ++ srcCells s 2 m2)]
    rfl

theorem resolveSS_raised_withLen {m1 m2 : Mode} {s t : State} {f : Raised} (h : resolveSS m1 m2 s = .raised f t) :
    ∃ n, s.len ≤ n ∧ n ≤ max s.len s.cfg.memCap ∧ t = s.withLen n := by
  simp only [resolveSS, Phase.andThen_eq_raised, srcParam_eq_ok, srcParam_eq_raised, reduceCtorEq, and_false,
    exists_false, or_false] at h
  rcases h with ⟨-, rfl⟩ | ⟨v, u, ⟨h1, -, rfl⟩, -, rfl⟩
  · exact ⟨_, le_lengthAfter _ _, lengthAfter_fetched_le s _ _, rfl⟩
  · have hb := h1.lengthAfter_le (n := s.len)
    have hc := lengthAfter_fetched_le s (lengthAfter s.len (srcCells s 1 m1)) 2
    exact ⟨_, Nat.le_trans (le_lengthAfter _ _) (le_lengthAfter _ _), Nat.le_trans hc (by omega), rfl⟩

theorem resolveSSD_raised_withLen {m1 m2 m3 : Mode} {s t : State} {f : Raised}
    (h : resolveSSD m1 m2 m3 s = .raised f t) : ∃ n, s.len ≤ n ∧ n ≤ max s.len s.cfg.memCap ∧ t = s.withLen n := by
  simp only [resolveSSD, Phase.andThen_eq_raised, reduceCtorEq, and_false, exists_false, or_false] at h
  rcases h with h | ⟨ab, u, hu, h⟩
  · exact resolveSS_raised_withLen h
  · obtain ⟨h1, h2, -, rfl⟩ := resolveSS_eq_ok.1 hu
    obtain ⟨n, hn, hc, rfl⟩ := dstParam_raised_withLen h
    have hb : lengthAfter s.len (srcCells s 1 m1 ++ srcCells s 2 m2) ≤ max s.len s.cfg.memCap := by
      have := h1.lengthAfter_le (n := s.len)
      have := h2.lengthAfter_le (n := lengthAfter s.len (srcCells s 1 m1))
      rw [lengthAfter_append]
      omega
    simp only [State.withLen_len, State.withLen_cfg] at hn hc
    exact ⟨n, Nat.le_trans (le_lengthAfter _ _) hn, by omega, rfl⟩

end Sys2Proof.Machine
end

