-- ==== Sys2Proof/Laws/Exec.lean ====
section
/-! SUPPORT. What each shape of instruction can do, said once: either it takes a fault, having changed nothing but `LEN`
(spec/60_exceptions.md rule R177), or it has the effect its rule gives. Later proofs cite these and do not unfold a meaning. -/

namespace Sys2Proof.Machine

/-- R177: `t` is the fault entry of `s`: only `LEN` and the fault's own registers differ. -/
def FaultedFrom (s t : State) : Prop :=
  ∃ f n, s.len ≤ n ∧ n ≤ max s.len s.cfg.memCap ∧ t = takeFault f (s.withLen n)

theorem FaultedFrom.of_withLen {s t : State} {n : Nat} (hn : s.len ≤ n) (hc : n ≤ max s.len s.cfg.memCap)
    (h : FaultedFrom (s.withLen n) t) : FaultedFrom s t := by
  obtain ⟨f, k, hk, hk', rfl⟩ := h
  simp only [State.withLen_len, State.withLen_cfg] at hk hk'
  exact ⟨f, k, Nat.le_trans hn hk, by omega, rfl⟩

/-- ADD, MUL, LT, EQ. -/
theorem storeResult_cases {g : Word → Word → Word} {m1 m2 m3 : Mode} {s t : State}
    (h : storeResult g m1 m2 m3 s = .next t) :
    FaultedFrom s t ∨
    ∃ d, SrcReady s 1 m1 ∧ SrcReady s 2 m2 ∧ DstReady s 3 m3 d ∧
      t = ((s.withLen (lengthAfter s.len (srcCells s 1 m1 ++ srcCells s 2 m2 ++ [s.pc.toNat + 3]))).store d
        (g (srcValue s 1 m1) (srcValue s 2 m2))).complete 4 := by
  rw [storeResult, finish_eq_next, Phase.andThen_eq_ok] at h
  rcases h with ⟨r, u, hr, hw⟩ | ⟨f, u, hr, rfl⟩
  · obtain ⟨h1, h2, h3, he, rfl⟩ := resolveSSD_eq_ok.1 hr
    right
    refine ⟨r.2.2, h1, h2, h3, ?_⟩
    rw [writeBack_of_lt (by exact h3.2.2)] at hw
    injection hw with _ hw
    rw [← hw, he]
  · rw [Phase.andThen_eq_raised] at hr
    left
    rcases hr with hr | ⟨r, v, hr, hw⟩
    · obtain ⟨n, hn, hc, rfl⟩ := resolveSSD_raised_withLen hr
      exact ⟨f, n, hn, hc, rfl⟩
    · obtain ⟨-, -, h3, -, rfl⟩ := resolveSSD_eq_ok.1 hr
      rw [writeBack_of_lt (by exact h3.2.2)] at hw
      cases hw

/-- ADD, MUL, LT, EQ complete when their parameters resolve. -/
theorem storeResult_of_ready {g : Word → Word → Word} {m1 m2 m3 : Mode} {s : State} {d : Nat}
    (h1 : SrcReady s 1 m1) (h2 : SrcReady s 2 m2) (h3 : DstReady s 3 m3 d) :
    storeResult g m1 m2 m3 s =
      .next (((s.withLen (lengthAfter s.len (srcCells s 1 m1 ++ srcCells s 2 m2 ++ [s.pc.toNat + 3]))).store d
        (g (srcValue s 1 m1) (srcValue s 2 m2))).complete 4) := by
  rw [storeResult, resolveSSD_eq_ok (r := (srcValue s 1 m1, srcValue s 2 m2, d)) |>.2 ⟨h1, h2, h3, rfl, rfl⟩,
    Phase.andThen_ok, writeBack_of_lt (by exact h3.2.2), finish_ok]

/-- JT, JF. -/
theorem condJump_cases {taken : Word → Bool} {m1 m2 : Mode} {s t : State} (h : condJump taken m1 m2 s = .next t) :
    FaultedFrom s t ∨
    (SrcReady s 1 m1 ∧ SrcReady s 2 m2 ∧
      ((taken (srcValue s 1 m1) = true ∧ 0 ≤ (srcValue s 2 m2).toInt ∧
          t = (s.withLen (lengthAfter s.len (srcCells s 1 m1 ++ srcCells s 2 m2))).jumpTo (srcValue s 2 m2)) ∨
        (taken (srcValue s 1 m1) = false ∧
          t = (s.withLen (lengthAfter s.len (srcCells s 1 m1 ++ srcCells s 2 m2))).complete 3))) := by
  rw [condJump, finish_eq_next, Phase.andThen_eq_ok] at h
  rcases h with ⟨ab, u, hr, hw⟩ | ⟨f, u, hr, rfl⟩
  · obtain ⟨h1, h2, rfl, rfl⟩ := resolveSS_eq_ok.1 hr
    right
    refine ⟨h1, h2, ?_⟩
    dsimp only at hw
    split at hw
    · next ht =>
      split at hw
      · cases hw
      · next hb =>
        injection hw with _ hw
        exact .inl ⟨ht, by omega, hw.symm⟩
    · next ht =>
      injection hw with _ hw
      exact .inr ⟨by simpa using ht, hw.symm⟩
  · rw [Phase.andThen_eq_raised] at hr
    left
    rcases hr with hr | ⟨r, v, hr, hw⟩
    · obtain ⟨n, hn, hc, rfl⟩ := resolveSS_raised_withLen hr
      exact ⟨f, n, hn, hc, rfl⟩
    · obtain ⟨h1, h2, -, rfl⟩ := resolveSS_eq_ok.1 hr
      split at hw
      · split at hw
        · injection hw with _ hw
          have := h1.lengthAfter_le (n := s.len)
          have := h2.lengthAfter_le (n := lengthAfter s.len (srcCells s 1 m1))
          rw [← hw]
          exact ⟨f, _, le_lengthAfter _ _, by rw [lengthAfter_append]; omega, rfl⟩
        · cases hw
      · cases hw

/-- JT and JF when their parameters resolve. -/
theorem condJump_of_ready {taken : Word → Bool} {m1 m2 : Mode} {s : State}
    (h1 : SrcReady s 1 m1) (h2 : SrcReady s 2 m2) :
    condJump taken m1 m2 s =
      .next (if taken (srcValue s 1 m1) then
          if (srcValue s 2 m2).toInt < 0 then
            takeFault (.addressFault (srcValue s 2 m2).toInt)
              (s.withLen (lengthAfter s.len (srcCells s 1 m1 ++ srcCells s 2 m2)))
          else (s.withLen (lengthAfter s.len (srcCells s 1 m1 ++ srcCells s 2 m2))).jumpTo (srcValue s 2 m2)
        else (s.withLen (lengthAfter s.len (srcCells s 1 m1 ++ srcCells s 2 m2))).complete 3) := by
  rw [condJump, resolveSS_eq_ok.2 ⟨h1, h2, rfl, rfl⟩, Phase.andThen_ok]
  dsimp only
  split
  · split <;> rfl
  · rfl

/-- R120: the three ways a receive into a valid address ends. -/
theorem receive_of_lt {d : Nat} {s : State} (h : d < s.cfg.memCap) :
    receive d s = .ok () (match s.inFifo with
      | x :: q => ((({ s with inFifo := q } : State).store d x).complete 2)
      | [] => if s.inClosed then s.enterHalted .inputClosed else s.hold .awaitInput) := by
  unfold receive
  cases hq : s.inFifo with
  | cons x q => exact writeBack_of_lt (by exact h)
  | nil =>
    dsimp only
    split <;> rfl

/-- IN. -/
theorem execIn_cases {m1 : Mode} {s t : State} (h : execIn m1 s = .next t) :
    FaultedFrom s t ∨
    ∃ d, DstReady s 1 m1 d ∧
      ((∃ x q, s.inFifo = x :: q ∧
          t = ((({ s.withLen (lengthAfter s.len [s.pc.toNat + 1]) with inFifo := q } : State).store d x).complete 2)) ∨
        (s.inFifo = [] ∧ s.inClosed = true ∧
          t = (s.withLen (lengthAfter s.len [s.pc.toNat + 1])).enterHalted .inputClosed) ∨
        (s.inFifo = [] ∧ s.inClosed = false ∧
          t = (s.withLen (lengthAfter s.len [s.pc.toNat + 1])).hold .awaitInput)) := by
  rw [execIn, finish_eq_next, Phase.andThen_eq_ok] at h
  rcases h with ⟨d, u, hr, hw⟩ | ⟨f, u, hr, rfl⟩
  · obtain ⟨h1, rfl⟩ := dstParam_eq_ok.1 hr
    right
    refine ⟨d, h1, ?_⟩
    rw [receive_of_lt (by exact h1.2.2)] at hw
    injection hw with _ hw
    rw [State.withLen_inFifo, State.withLen_inClosed] at hw
    cases hq : s.inFifo with
    | cons x q =>
      rw [hq] at hw
      exact .inl ⟨x, q, rfl, hw.symm⟩
    | nil =>
      rw [hq] at hw
      cases hc : s.inClosed with
      | true => rw [hc] at hw; exact .inr (.inl ⟨rfl, rfl, hw.symm⟩)
      | false => rw [hc] at hw; exact .inr (.inr ⟨rfl, rfl, hw.symm⟩)
  · rw [Phase.andThen_eq_raised] at hr
    left
    rcases hr with hr | ⟨d, v, hr, hw⟩
    · obtain ⟨n, hn, hc, rfl⟩ := dstParam_raised_withLen hr
      exact ⟨f, n, hn, hc, rfl⟩
    · obtain ⟨h1, rfl⟩ := dstParam_eq_ok.1 hr
      rw [receive_of_lt (by exact h1.2.2)] at hw
      cases hw

/-- IN when its destination resolves. -/
theorem execIn_of_ready {m1 : Mode} {s : State} {d : Nat} (h1 : DstReady s 1 m1 d) :
    execIn m1 s = finish (receive d (s.withLen (lengthAfter s.len [s.pc.toNat + 1]))) := by
  rw [execIn, dstParam_eq_ok.2 ⟨h1, rfl⟩, Phase.andThen_ok]

/-- R121: the three ways a send ends. -/
theorem send_cases (a : Word) (s : State) :
    (s.outClosed = true ∧
      send a s = (({ s with outLog := s.outLog ++ [a], outDrop := true } : State).complete 2)) ∨
    (s.outClosed = false ∧ Depth.hasRoom s.cfg.outDepth s.outFifo = true ∧
      send a s = (({ s with outLog := s.outLog ++ [a], outFifo := s.outFifo ++ [a] } : State).complete 2)) ∨
    (s.outClosed = false ∧ Depth.hasRoom s.cfg.outDepth s.outFifo = false ∧ send a s = s.hold .awaitOutput) := by
  unfold send
  cases hc : s.outClosed with
  | true => exact .inl ⟨rfl, rfl⟩
  | false =>
    cases hr : Depth.hasRoom s.cfg.outDepth s.outFifo with
    | true => exact .inr (.inl ⟨rfl, rfl, rfl⟩)
    | false => exact .inr (.inr ⟨rfl, rfl, rfl⟩)

/-- OUT. -/
theorem execOut_cases {m1 : Mode} {s t : State} (h : execOut m1 s = .next t) :
    FaultedFrom s t ∨
    (SrcReady s 1 m1 ∧ t = send (srcValue s 1 m1) (s.withLen (lengthAfter s.len (srcCells s 1 m1)))) := by
  rw [execOut, finish_eq_next, Phase.andThen_eq_ok] at h
  rcases h with ⟨a, u, hr, hw⟩ | ⟨f, u, hr, rfl⟩
  · obtain ⟨h1, rfl, rfl⟩ := srcParam_eq_ok.1 hr
    injection hw with _ hw
    exact .inr ⟨h1, hw.symm⟩
  · rw [Phase.andThen_eq_raised] at hr
    left
    rcases hr with hr | ⟨r, v, hr, hw⟩
    · obtain ⟨-, rfl⟩ := srcParam_eq_raised.1 hr
      exact ⟨f, _, le_lengthAfter _ _, lengthAfter_fetched_le s _ _, rfl⟩
    · cases hw

theorem execOut_of_ready {m1 : Mode} {s : State} (h1 : SrcReady s 1 m1) :
    execOut m1 s = .next (send (srcValue s 1 m1) (s.withLen (lengthAfter s.len (srcCells s 1 m1)))) := by
  rw [execOut, srcParam_eq_ok.2 ⟨h1, rfl, rfl⟩, Phase.andThen_ok, finish_ok]

/-- ARB. -/
theorem execArb_cases {m1 : Mode} {s t : State} (h : execArb m1 s = .next t) :
    FaultedFrom s t ∨
    (SrcReady s 1 m1 ∧
      t = ((s.withLen (lengthAfter s.len (srcCells s 1 m1))).adjustBase (srcValue s 1 m1)).complete 2) := by
  rw [execArb, finish_eq_next, Phase.andThen_eq_ok] at h
  rcases h with ⟨a, u, hr, hw⟩ | ⟨f, u, hr, rfl⟩
  · obtain ⟨h1, rfl, rfl⟩ := srcParam_eq_ok.1 hr
    injection hw with _ hw
    exact .inr ⟨h1, hw.symm⟩
  · rw [Phase.andThen_eq_raised] at hr
    left
    rcases hr with hr | ⟨r, v, hr, hw⟩
    · obtain ⟨-, rfl⟩ := srcParam_eq_raised.1 hr
      exact ⟨f, _, le_lengthAfter _ _, lengthAfter_fetched_le s _ _, rfl⟩
    · cases hw

theorem execArb_of_ready {m1 : Mode} {s : State} (h1 : SrcReady s 1 m1) :
    execArb m1 s =
      .next (((s.withLen (lengthAfter s.len (srcCells s 1 m1))).adjustBase (srcValue s 1 m1)).complete 2) := by
  rw [execArb, srcParam_eq_ok.2 ⟨h1, rfl, rfl⟩, Phase.andThen_ok, finish_ok]

/-! ### The arms of `exec`, each over its shared operation -/

theorem exec_add (m1 m2 m3 : Mode) (s : State) : exec (.add m1 m2 m3) s = storeResult wrapAdd m1 m2 m3 s := rfl
theorem exec_mul (m1 m2 m3 : Mode) (s : State) : exec (.mul m1 m2 m3) s = storeResult wrapMul m1 m2 m3 s := rfl
theorem exec_lt (m1 m2 m3 : Mode) (s : State) : exec (.lt m1 m2 m3) s = storeResult lessThan m1 m2 m3 s := rfl
theorem exec_eq (m1 m2 m3 : Mode) (s : State) : exec (.eq m1 m2 m3) s = storeResult equalWords m1 m2 m3 s := rfl
theorem exec_inp (m1 x2 x3 : Mode) (s : State) : exec (.inp m1 x2 x3) s = execIn m1 s := rfl
theorem exec_out (m1 x2 x3 : Mode) (s : State) : exec (.out m1 x2 x3) s = execOut m1 s := rfl
theorem exec_jt (m1 m2 x3 : Mode) (s : State) :
    exec (.jt m1 m2 x3) s = condJump (fun a => decide (a ≠ 0)) m1 m2 s := rfl
theorem exec_jf (m1 m2 x3 : Mode) (s : State) :
    exec (.jf m1 m2 x3) s = condJump (fun a => decide (a = 0)) m1 m2 s := rfl
theorem exec_arb (m1 x2 x3 : Mode) (s : State) : exec (.arb m1 x2 x3) s = execArb m1 s := rfl
theorem exec_halt (x1 x2 x3 : Mode) (s : State) :
    exec (.halt x1 x2 x3) s = .next (s.enterHalted .haltInstruction) := rfl

end Sys2Proof.Machine
end

