-- ==== Sys2Proof/Laws/Step.lean ====
section
/-! SUPPORT. FETCH, DECODE and the step said once (spec/40_step_fsm.md rules R90, R93, R94, R102). -/

namespace Sys2Proof.Machine

theorem fetch_eq (s : State) :
    fetch s = if s.pc.toNat < s.cfg.memCap then .ok (s.peek s.pc.toNat) (s.grow s.pc.toNat)
      else .raised (.capacityFault (s.pc.toNat : Nat)) s := by
  unfold fetch
  split
  · next h => exact memRead_of_lt h
  · next h => exact memRead_eq_raised.2 ⟨rfl, .inr ⟨by omega, by omega, rfl⟩⟩

/-- R93, R94: when FETCH and DECODE yield an instruction. -/
theorem fetchDecode_eq_ok {s t : State} {i : Instr} :
    fetchDecode s = .ok i t ↔
      s.pc.toNat < s.cfg.memCap ∧ decode (s.peek s.pc.toNat) = .ok i ∧ t = s.grow s.pc.toNat := by
  rw [fetchDecode, fetch_eq]
  split
  · next h =>
    rw [Phase.andThen_ok, decodePhase]
    cases hd : decode (s.peek s.pc.toNat) with
    | error e => simp
    | ok j =>
      simp only [Phase.ok.injEq, Except.ok.injEq]
      constructor
      · rintro ⟨rfl, rfl⟩; exact ⟨h, rfl, rfl⟩
      · rintro ⟨-, rfl, rfl⟩; exact ⟨rfl, rfl⟩
  · next h => simp [h]

/-- R93, R94: FETCH and DECODE raise in two cases. -/
theorem fetchDecode_eq_raised {s t : State} {f : Raised} :
    fetchDecode s = .raised f t ↔
      (s.cfg.memCap ≤ s.pc.toNat ∧ f = .capacityFault (s.pc.toNat : Nat) ∧ t = s) ∨
      (s.pc.toNat < s.cfg.memCap ∧ (∃ e, decode (s.peek s.pc.toNat) = .error e) ∧
        f = .decodeFault (s.peek s.pc.toNat) ∧ t = s.grow s.pc.toNat) := by
  rw [fetchDecode, fetch_eq]
  split
  · next h =>
    rw [Phase.andThen_ok, decodePhase]
    cases hd : decode (s.peek s.pc.toNat) with
    | error e =>
      simp only [Phase.raised.injEq, Except.error.injEq, exists_eq', true_and]
      constructor
      · rintro ⟨rfl, rfl⟩; exact .inr ⟨h, rfl, rfl⟩
      · rintro (⟨h', -⟩ | ⟨-, rfl, rfl⟩)
        · omega
        · exact ⟨rfl, rfl⟩
    | ok j =>
      simp only [reduceCtorEq, false_iff]
      rintro (⟨h', -⟩ | ⟨-, ⟨e, he⟩, -⟩)
      · omega
      · cases he
  · next h =>
    simp only [Phase.andThen_raised, Phase.raised.injEq]
    constructor
    · rintro ⟨rfl, rfl⟩; exact .inl ⟨by omega, rfl, rfl⟩
    · rintro (⟨-, rfl, rfl⟩ | ⟨h', -⟩)
      · exact ⟨rfl, rfl⟩
      · omega

/-- The inversion of the step: it stutters (R90), it takes a fetch or decode fault, or it runs the decoded instruction on the
state FETCH left. -/
theorem step_cases {s t : State} (h : step s = .next t) :
    (s.st.steps = false ∧ t = s) ∨
    (s.st.steps = true ∧ FaultedFrom s t) ∨
    (s.st.steps = true ∧ ∃ i, s.pc.toNat < s.cfg.memCap ∧ decode (s.peek s.pc.toNat) = .ok i ∧
      exec i (s.withLen (max s.len (s.pc.toNat + 1))) = .next t) := by
  unfold step at h
  split at h
  · next hs =>
    split at h
    · next i u hfd =>
      obtain ⟨h1, h2, rfl⟩ := fetchDecode_eq_ok.1 hfd
      exact .inr (.inr ⟨hs, i, h1, h2, h⟩)
    · next f u hfd =>
      right; left
      injection h with h
      rcases fetchDecode_eq_raised.1 hfd with ⟨-, -, rfl⟩ | ⟨hc, -, -, rfl⟩
      · exact ⟨hs, f, _, Nat.le_refl _, Nat.le_max_left _ _, h.symm⟩
      · exact ⟨hs, f, _, Nat.le_max_left _ _, by omega, h.symm⟩
  · next hs =>
    injection h with h
    exact .inl ⟨by simpa using hs, h.symm⟩

end Sys2Proof.Machine
end

