-- ==== Sys2Proof/Laws/Outcomes.lean ====
section
/-! SUPPORT. Everything one instruction, and one step, can do, said once for all instructions: it faults, having changed
nothing but `LEN` (`FaultedFrom`), or it ends in one of the ways `Ended` lists. Whole-machine statements cite `step_ended` and
need not unfold a meaning. -/

namespace Sys2Proof.Machine

/-- Every instruction answers a next state (a fault is taken: R100). -/
theorem exec_answers_next (i : Instr) (s : State) : ∃ t, exec i s = .next t := by
  have fin : ∀ p : Phase Unit, ∃ t, finish p = .next t := by intro p; cases p <;> exact ⟨_, rfl⟩
  cases i <;> first | exact fin _ | exact ⟨_, rfl⟩

theorem step_answers_next (s : State) : ∃ t, step s = .next t := by
  unfold step
  split
  · split
    · exact exec_answers_next _ _
    · exact ⟨_, rfl⟩
  · exact ⟨_, rfl⟩

theorem step_eq_stepState (s : State) : step s = .next (stepState s) := by
  obtain ⟨t, h⟩ := step_answers_next s
  rw [stepState, h]

/-- How an instruction `i` that does not fault can end, from `s` in `t`. -/
inductive Ended (i : Instr) (s t : State) : Prop
  /-- ADD, MUL, LT, EQ: a store and an advance by 4 (R111, R112, R150, R151). -/
  | stored (k : Nat) (m : Mode) (d : Nat) (v : Word) (n : Nat) (hi : i.destination = some (k, m))
      (hd : DstReady s k m d) (hn : s.len ≤ n) (hc : n ≤ max s.len s.cfg.memCap) (hne : ∀ a b c, i ≠ .inp a b c)
      (ht : t = ((s.withLen n).store d v).complete 4)
  /-- IN with a word in the buffer (R120). -/
  | received (m b c : Mode) (d : Nat) (x : Word) (q : Fifo) (n : Nat) (hi : i = .inp m b c) (hd : DstReady s 1 m d)
      (hq : s.inFifo = x :: q) (hn : s.len ≤ n) (hc : n ≤ max s.len s.cfg.memCap)
      (ht : t = (({ s.withLen n with inFifo := q } : State).store d x).complete 2)
  /-- IN on an empty, closed port (R120). -/
  | inputEnded (m b c : Mode) (d : Nat) (hi : i = .inp m b c) (hd : DstReady s 1 m d) (hq : s.inFifo = [])
      (hc : s.inClosed = true) (ht : t = (s.withLen (lengthAfter s.len [s.pc.toNat + 1])).enterHalted .inputClosed)
  /-- IN on an empty, open port (R92). -/
  | inputHeld (m b c : Mode) (d : Nat) (hi : i = .inp m b c) (hd : DstReady s 1 m d) (hq : s.inFifo = [])
      (hc : s.inClosed = false) (ht : t = (s.withLen (lengthAfter s.len [s.pc.toNat + 1])).hold .awaitInput)
  /-- OUT: `send_cases` says the three ways (R121). -/
  | sent (m b c : Mode) (hi : i = .out m b c) (hr : SrcReady s 1 m)
      (ht : t = send (srcValue s 1 m) (s.withLen (lengthAfter s.len (srcCells s 1 m))))
  /-- A taken jump (R142). -/
  | jumped (n : Nat) (b : Word) (hi : i.destination = none) (hna : ∀ x y z, i ≠ .arb x y z) (hn : s.len ≤ n)
      (hc : n ≤ max s.len s.cfg.memCap) (hb : 0 ≤ b.toInt) (ht : t = (s.withLen n).jumpTo b)
  /-- A jump that is not taken (R140, R141). -/
  | fellThrough (n : Nat) (hi : i.destination = none) (hna : ∀ x y z, i ≠ .arb x y z) (hn : s.len ≤ n)
      (hc : n ≤ max s.len s.cfg.memCap) (ht : t = (s.withLen n).complete 3)
  /-- ARB (R160). -/
  | adjusted (m b c : Mode) (v : Word) (n : Nat) (hi : i = .arb m b c) (hn : s.len ≤ n)
      (hc : n ≤ max s.len s.cfg.memCap) (ht : t = ((s.withLen n).adjustBase v).complete 2)
  /-- HALT (R165). -/
  | halted (a b c : Mode) (hi : i = .halt a b c) (ht : t = s.enterHalted .haltInstruction)

theorem SrcReady.two_le {s : State} {m1 m2 : Mode} (h1 : SrcReady s 1 m1) (h2 : SrcReady s 2 m2) :
    lengthAfter s.len (srcCells s 1 m1 ++ srcCells s 2 m2) ≤ max s.len s.cfg.memCap := by
  have := h1.lengthAfter_le (n := s.len)
  have := h2.lengthAfter_le (n := lengthAfter s.len (srcCells s 1 m1))
  rw [lengthAfter_append]; omega

theorem exec_ended {i : Instr} {s t : State} (h : exec i s = .next t) : FaultedFrom s t ∨ Ended i s t := by
  have store : ∀ {g m1 m2 m3}, i.destination = some (3, m3) → (∀ a b c, i ≠ .inp a b c) →
      storeResult g m1 m2 m3 s = .next t → FaultedFrom s t ∨ Ended i s t := by
    intro g m1 m2 m3 hd hne h
    rcases storeResult_cases h with h | ⟨d, h1, h2, h3, rfl⟩
    · exact .inl h
    · refine .inr (.stored 3 m3 d _ _ hd h3 (le_lengthAfter _ _) ?_ hne rfl)
      have := h1.two_le h2
      have := h3.1
      rw [lengthAfter_append]
      simp only [lengthAfter_cons, lengthAfter_nil]
      omega
  have jump : ∀ {g m1 m2}, i.destination = none → (∀ x y z, i ≠ .arb x y z) →
      condJump g m1 m2 s = .next t → FaultedFrom s t ∨ Ended i s t := by
    intro g m1 m2 hd hna h
    rcases condJump_cases h with h | ⟨h1, h2, ⟨-, hb, rfl⟩ | ⟨-, rfl⟩⟩
    · exact .inl h
    · exact .inr (.jumped _ _ hd hna (le_lengthAfter _ _) (h1.two_le h2) hb rfl)
    · exact .inr (.fellThrough _ hd hna (le_lengthAfter _ _) (h1.two_le h2) rfl)
  cases i with
  | add a b c => exact store rfl (by simp) h
  | mul a b c => exact store rfl (by simp) h
  | lt a b c => exact store rfl (by simp) h
  | eq a b c => exact store rfl (by simp) h
  | jt a b c => rw [exec_jt] at h; exact jump rfl (by simp) h
  | jf a b c => rw [exec_jf] at h; exact jump rfl (by simp) h
  | inp a b c =>
    rcases execIn_cases h with h | ⟨d, hd, ⟨x, q, hq, rfl⟩ | ⟨hq, hc, rfl⟩ | ⟨hq, hc, rfl⟩⟩
    · exact .inl h
    · refine .inr (.received a b c d x q _ rfl hd hq (le_lengthAfter _ _) ?_ rfl)
      have := hd.1
      simp only [lengthAfter_cons, lengthAfter_nil]
      omega
    · exact .inr (.inputEnded a b c d rfl hd hq hc rfl)
    · exact .inr (.inputHeld a b c d rfl hd hq hc rfl)
  | out a b c =>
    rcases execOut_cases h with h | ⟨h1, rfl⟩
    · exact .inl h
    · exact .inr (.sent a b c rfl h1 rfl)
  | arb a b c =>
    rcases execArb_cases h with h | ⟨h1, rfl⟩
    · exact .inl h
    · exact .inr (.adjusted a b c _ _ rfl (le_lengthAfter _ _) h1.lengthAfter_le rfl)
  | halt a b c => exact .inr (.halted a b c rfl (by injection h with h; exact h.symm))

/-- Everything one step can do. The decoded instruction ends from the state FETCH left. -/
theorem step_ended {s t : State} (h : step s = .next t) :
    (s.st.steps = false ∧ t = s) ∨
    (s.st.steps = true ∧ FaultedFrom s t) ∨
    (s.st.steps = true ∧ ∃ i, s.pc.toNat < s.cfg.memCap ∧ decode (s.peek s.pc.toNat) = .ok i ∧
      Ended i (s.withLen (max s.len (s.pc.toNat + 1))) t) := by
  rcases step_cases h with h | h | ⟨hs, i, hp, hd, he⟩
  · exact .inl h
  · exact .inr (.inl h)
  · rcases exec_ended he with h | h
    · exact .inr (.inl ⟨hs, FaultedFrom.of_withLen (Nat.le_max_left _ _) (by omega) h⟩)
    · exact .inr (.inr ⟨hs, i, hp, hd, h⟩)

end Sys2Proof.Machine
end

