-- ==== Sys2Proof/Laws/PerInstr.lean ====
section
/-! SUPPORT. Statements made per instruction, one lemma per constructor. `WordInRange` is about the instruction as syntax
(spec/30_encoding.md rules R60, R61, R70, R74). -/

namespace Sys2Proof.Laws

theorem digit_le_two (m : Mode) : m.digit ≤ 2 := by cases m <;> decide

/-- R61, R70, R74: the instruction word is a positive number of at most five digits, its two low digits are the opcode,
its next three the mode digits, and the length is one word more than the number of parameters. -/
def WordInRange.Statement (i : Instr) : Prop :=
  1 ≤ (encode i).toNat ∧ (encode i).toNat ≤ 22299
    ∧ (encode i).toNat % 100 = i.opcode ∧ (encode i).toNat / 100 % 10 = i.mode1.digit
    ∧ (encode i).toNat / 1000 % 10 = i.mode2.digit ∧ (encode i).toNat / 10000 = i.mode3.digit
    ∧ i.length = i.params.length + 1

/-- R61: the arithmetic of the encoding formula, for any opcode below 100. -/
theorem encode_toNat (i : Instr) (h : i.opcode < 100) :
    (encode i).toNat = i.opcode + 100 * i.mode1.digit + 1000 * i.mode2.digit + 10000 * i.mode3.digit := by
  have h1 := digit_le_two i.mode1
  have h2 := digit_le_two i.mode2
  have h3 := digit_le_two i.mode3
  rw [encode, BitVec.toNat_ofNat, Nat.mod_eq_of_lt (by omega)]

theorem wordInRange_of (i : Instr) (h : i.opcode < 100) (h0 : 1 ≤ i.opcode) (hl : i.length = i.params.length + 1) :
    WordInRange.Statement i := by
  have h1 := digit_le_two i.mode1
  have h2 := digit_le_two i.mode2
  have h3 := digit_le_two i.mode3
  unfold WordInRange.Statement
  rw [encode_toNat i h]
  omega

theorem WordInRange.add (m1 m2 m3 : Mode) : WordInRange.Statement (.add m1 m2 m3) :=
  wordInRange_of _ (by simp [Instr.opcode]) (by simp [Instr.opcode]) rfl
theorem WordInRange.mul (m1 m2 m3 : Mode) : WordInRange.Statement (.mul m1 m2 m3) :=
  wordInRange_of _ (by simp [Instr.opcode]) (by simp [Instr.opcode]) rfl
theorem WordInRange.inp (m1 x2 x3 : Mode) : WordInRange.Statement (.inp m1 x2 x3) :=
  wordInRange_of _ (by simp [Instr.opcode]) (by simp [Instr.opcode]) rfl
theorem WordInRange.out (m1 x2 x3 : Mode) : WordInRange.Statement (.out m1 x2 x3) :=
  wordInRange_of _ (by simp [Instr.opcode]) (by simp [Instr.opcode]) rfl
theorem WordInRange.jt (m1 m2 x3 : Mode) : WordInRange.Statement (.jt m1 m2 x3) :=
  wordInRange_of _ (by simp [Instr.opcode]) (by simp [Instr.opcode]) rfl
theorem WordInRange.jf (m1 m2 x3 : Mode) : WordInRange.Statement (.jf m1 m2 x3) :=
  wordInRange_of _ (by simp [Instr.opcode]) (by simp [Instr.opcode]) rfl
theorem WordInRange.lt (m1 m2 m3 : Mode) : WordInRange.Statement (.lt m1 m2 m3) :=
  wordInRange_of _ (by simp [Instr.opcode]) (by simp [Instr.opcode]) rfl
theorem WordInRange.eq (m1 m2 m3 : Mode) : WordInRange.Statement (.eq m1 m2 m3) :=
  wordInRange_of _ (by simp [Instr.opcode]) (by simp [Instr.opcode]) rfl
theorem WordInRange.arb (m1 x2 x3 : Mode) : WordInRange.Statement (.arb m1 x2 x3) :=
  wordInRange_of _ (by simp [Instr.opcode]) (by simp [Instr.opcode]) rfl
theorem WordInRange.halt (x1 x2 x3 : Mode) : WordInRange.Statement (.halt x1 x2 x3) :=
  wordInRange_of _ (by simp [Instr.opcode]) (by simp [Instr.opcode]) rfl

end Sys2Proof.Laws
end

