-- ==== Sys2Proof/Tests/Slice0.lean ====
section
/-! SUPPORT. Tests. Expected results come from spec/95_test_vectors.md (the vector's name is in each docstring) or are worked
out by hand from the rule named. Every test is one step, or a decoding. The last part shows, for every statement with
hypotheses, a concrete state and operands that meet them. -/

namespace Sys2Proof.Tests

open Sys2Proof.Machine

/-- `Init(P, I)` at the reference setting. -/
def ref (P I : List Word) : State := State.launch Config.reference P I false

/-- `Init(P, I)` or `Init(P, I, closed)` on a small machine: `MEM_CAP = 8`, `IN_DEPTH = 2`, `OUT_DEPTH = 1`. -/
def small (P I : List Word) (closed : Bool) : State := State.launch ⟨8, .finite 2, .finite 1⟩ P I closed

def maxWord : Word := 9223372036854775807
def minWord : Word := -9223372036854775808

/-! ### Well-formedness (R71) -/

theorem test_wellFormed_accepts_sources : (Instr.add .immediate .immediate .relative).WellFormed := by decide
theorem test_wellFormed_refuses_add : ¬ (Instr.add .position .position .immediate).WellFormed := by decide
theorem test_wellFormed_refuses_mul : ¬ (Instr.mul .position .position .immediate).WellFormed := by decide
theorem test_wellFormed_refuses_inp : ¬ (Instr.inp .immediate .position .position).WellFormed := by decide
theorem test_wellFormed_refuses_lt : ¬ (Instr.lt .position .position .immediate).WellFormed := by decide
theorem test_wellFormed_refuses_eq : ¬ (Instr.eq .position .position .immediate).WellFormed := by decide
theorem test_wellFormed_keeps_ignored_digits : (Instr.halt .immediate .immediate .immediate).WellFormed := by decide

/-! ### Decoding: words written out digit by digit from R61 and R76 (section 2.2 of the vectors, and by hand) -/

theorem test_decode_add : decode 21101 = .ok (.add .immediate .immediate .relative) := by decide
theorem test_decode_mul : decode 1002 = .ok (.mul .position .immediate .position) := by decide
theorem test_decode_inp : decode 203 = .ok (.inp .relative .position .position) := by decide
theorem test_decode_out : decode 104 = .ok (.out .immediate .position .position) := by decide
theorem test_decode_jt : decode 2105 = .ok (.jt .immediate .relative .position) := by decide
theorem test_decode_jf : decode 1206 = .ok (.jf .relative .immediate .position) := by decide
theorem test_decode_lt : decode 20107 = .ok (.lt .immediate .position .relative) := by decide
theorem test_decode_eq : decode 1208 = .ok (.eq .relative .immediate .position) := by decide
theorem test_decode_arb : decode 109 = .ok (.arb .immediate .position .position) := by decide
theorem test_decode_halt : decode 99 = .ok (.halt .position .position .position) := by decide
theorem test_decode_ignored_digits : decode 1199 = .ok (.halt .immediate .immediate .position)
    ∧ decode 10004 = .ok (.out .position .position .immediate)
    ∧ decode 22299 = .ok (.halt .relative .relative .relative) := by decide
theorem test_decode_rejects_opcodes : decode 0 = .error .opcode ∧ decode 10 = .error .opcode
    ∧ decode 98 = .error .opcode ∧ decode 1100 = .error .opcode := by decide
theorem test_decode_rejects_mode_digits : decode 301 = .error .modeDigit ∧ decode 3001 = .error .modeDigit
    ∧ decode 30001 = .error .modeDigit ∧ decode 399 = .error .modeDigit ∧ decode 901 = .error .modeDigit := by decide
theorem test_decode_rejects_immediate_destinations : decode 10001 = .error .immediateDestination
    ∧ decode 10002 = .error .immediateDestination ∧ decode 10007 = .error .immediateDestination
    ∧ decode 10008 = .error .immediateDestination ∧ decode 103 = .error .immediateDestination := by decide
theorem test_decode_rejects_high_and_negative : decode 100001 = .error .highDigits ∧ decode maxWord = .error .highDigits
    ∧ decode (-1) = .error .negative ∧ decode minWord = .error .negative := by decide

/-- R61: `encode` on the same words. -/
theorem test_encode : encode (.add .immediate .immediate .relative) = 21101
    ∧ encode (.jt .immediate .relative .position) = 2105
    ∧ encode (.halt .position .position .position) = 99 := by decide

/-! ### The host's two entry points -/

theorem test_table_word_reads_first_word : decodeTableWord 64 21101 = some (.add .immediate .immediate .relative) := by decide
theorem test_table_word_ignores_operands :
    decodeTableWord 128 (104 + 7 * 2 ^ 64) = some (.out .immediate .position .position) := by decide
theorem test_table_word_rejects : decodeTableWord 64 10001 = none := by decide
theorem test_withFetchWord_runs_the_word :
    (stepState (State.reset.withFetchWord 128 (104 + 7 * 2 ^ 64))).outLog = [7] := by decide
theorem test_withFetchWord_halts : (stepState (State.reset.withFetchWord 64 99)).st = .halted := by decide

/-! ### One step of each instruction -/

/-- A1: ADD wraps upward. -/
theorem test_add_wraps : (stepState (ref [1101, maxWord, 1, 5, 99, 0] [])).peek 5 = minWord := by decide
/-- A10: the destination is both sources and the instruction word. -/
theorem test_add_over_itself : (stepState (ref [1, 0, 0, 0, 99] [])).peek 0 = 2 := by decide
/-- A5: MUL wraps. -/
theorem test_mul_wraps : (stepState (ref [1102, minWord, -1, 5, 99] [])).peek 5 = minWord := by decide
/-- A6: MUL is signed. -/
theorem test_mul_signed : (stepState (ref [1102, -3, 7, 5, 99] [])).peek 5 = -21 := by decide
/-- S4: IN stores the input word. -/
theorem test_inp_stores : (stepState (ref [3, 0, 4, 0, 99] [15])).peek 0 = 15 := by decide
/-- O5: the destination is checked before the port is looked at. -/
theorem test_inp_checks_first : (stepState (ref [3, -1, 99] [])).fcause = .addressFault := by decide
/-- O1: a 16-digit literal is unmodified. -/
theorem test_out_literal : (stepState (ref [104, 1125899906842624, 99] [])).outFifo = [1125899906842624] := by decide
/-- M2: OUT beyond the tape reads 0 and grows the tape over the cell. -/
theorem test_out_grows : (stepState (ref [4, 50, 99] [])).outLog = [0] ∧ (stepState (ref [4, 50, 99] [])).len = 51 := by decide
/-- J5: a negative value is true. -/
theorem test_jt_negative_is_true : (stepState (ref [1105, -7, 3, 99] [])).pc = 3 := by decide
/-- J4: a taken jump to a negative target faults. -/
theorem test_jt_negative_target : (stepState (ref [1105, 1, -1, 1106, 5, -1, 99] [])).fval = -1 := by decide
/-- J2: JF taken. -/
theorem test_jf_taken : (stepState (ref [6, 7, 8, 104, 1, 99, 0, 0, 5] [])).pc = 5 := by decide
/-- R141: JF not taken (J3's second instruction). -/
theorem test_jf_not_taken : (stepState (ref [1106, 5, -1, 99] [])).pc = 3 := by decide
/-- C3: signed extremes. -/
theorem test_lt_signed : (stepState (ref [1107, minWord, maxWord, 5, 99] [])).peek 5 = 1 := by decide
/-- C2: equal is not less. -/
theorem test_lt_equal : (stepState (ref [1107, 3, 3, 5, 99, 9] [])).peek 5 = 0 := by decide
/-- C5: two unwritten cells are equal. -/
theorem test_eq_unwritten : (stepState (ref [8, 100, 101, 102, 99] [])).peek 102 = 1 := by decide
/-- C6: all 64 bits are compared. -/
theorem test_eq_extremes : (stepState (ref [1108, maxWord, minWord, 5, 99, 9] [])).peek 5 = 0 := by decide
/-- B2: ARB wraps (its second instruction, from `RB = MX`). -/
theorem test_arb_wraps : (stepState { ref [109, 1, 99] [] with rb := maxWord }).rb = minWord := by decide
/-- B7: a Relative source uses the old `RB` (its second instruction, from `RB = 3`). -/
theorem test_arb_old_base : (stepState { ref [209, 0, 99, 5] [] with rb := 3 }).rb = 8 := by decide
/-- O12: HALT leaves the input unread and `PC` in place. -/
theorem test_halt : (stepState (ref [99, 1, 2, 3] [5])).inFifo = [5] ∧ (stepState (ref [99, 1, 2, 3] [5])).pc = 0 := by decide
/-- H1: HALT with ignored mode digits. -/
theorem test_halt_noncanonical : (stepState (ref [1199] [])).hcause = .haltInstruction := by decide

/-! ### Faults -/

/-- B5: the address sum is exact: `-2^64` is negative, though it wraps to 0. -/
theorem test_fault_exact_sum : (stepState { ref [204, minWord, 99] [] with rb := minWord }).fcause = .addressFault
    ∧ (stepState { ref [204, minWord, 99] [] with rb := minWord }).fval = 0 := by decide
/-- B4: `2^64 - 2` is at or beyond `MEM_CAP`. -/
theorem test_fault_capacity_sum : (stepState { ref [204, maxWord, 99] [] with rb := maxWord }).fcause = .capacityFault
    ∧ (stepState { ref [204, maxWord, 99] [] with rb := maxWord }).fval = -2 := by decide
/-- F1: the first parameter's fault is the one reported, after one operand fetch. -/
theorem test_fault_priority : (stepState (ref [1, -1, -2, -3] [])).fval = -1 := by decide
/-- M5: a destination at `MEM_CAP`. -/
theorem test_fault_capacity_destination : (stepState (small [1101, 1, 2, 8, 99] [] false)).fcause = .capacityFault
    ∧ (stepState (small [1101, 1, 2, 8, 99] [] false)).len = 5 := by decide
/-- M9: the empty program. -/
theorem test_fault_empty_program : (stepState (ref [] [])).fcause = .decodeFault ∧ (stepState (ref [] [])).len = 1 := by decide

/-! ### Memory (R11, R46) -/

theorem test_memory_zero_write_removes : Memory.set [(3, 7)] 3 0 = [] := by decide
theorem test_memory_write_sorts : Memory.set [(1, 5), (9, 6)] 4 2 = [(1, 5), (4, 2), (9, 6)] := by decide
theorem test_reset_memory_wf : Memory.wf State.reset.mem := by decide

/-! ### The flags and the host (R18, R26, R30) -/

/-- R18: a fresh core in AWAIT_INPUT (O6) shows `NEED_INPUT`, both FIFOs empty, and nothing else. -/
theorem test_flags : (stepState (ref [3, 0, 4, 0, 99] [])).flags = 112 := by decide
/-- F1 and R14, R16: the status readout of a core that took AddressFault. -/
theorem test_status_faulted : (stepState (ref [1, -1, -2, -3] [])).status.st = 5
    ∧ (stepState (ref [1, -1, -2, -3] [])).status.fcause = 2
    ∧ (stepState (ref [1, -1, -2, -3] [])).status.fval = -1 := by decide
/-- H1 and R14, R15: the status readout of a core that executed HALT. -/
theorem test_status_halted : (stepState (ref [1199] [])).status.st = 4
    ∧ (stepState (ref [1199] [])).status.hcause = 1 := by decide
theorem test_load_appends : (hostOp (.load 7) (hostOp (.load 5) State.reset).1).1.tape = [5, 7] := by decide
theorem test_pop_empty_is_refused : hostOp .popOut State.reset = (State.reset, .refused) := by decide

/-! ### Witnesses: a state and operands that meet the hypotheses of each statement -/

theorem srcReady_of {s : State} {i : Nat} {m : Mode} (h : paramFault s i m = none) : SrcReady s i m := paramFault_eq_none.1 h

/-- The state of S4, used by most witnesses of instructions that store. -/
abbrev sAdd : State := ref [1101, 2, 3, 5, 99] []
abbrev sHold : State := stepState (small [3, 5, 99] [] false)
abbrev sFull : State := stepState { small [104, 7, 99] [] false with outFifo := [1] }

theorem witness_DecodeInvertsEncode : (Instr.lt .immediate .relative .position).WellFormed := by decide
theorem witness_EncodeInvertsDecode : decode 2105 = .ok (.jt .immediate .relative .position) := by decide
theorem witness_DecodeAcceptsExactlyLegalWords : LegalWord 22299 ∧ LegalWord 1 ∧ ¬ LegalWord 10001 := by
  unfold LegalWord; decide
theorem witness_IllegalEncodingTakesDecodeFault :
    ∀ W ∈ ([-1, 100001, 98, 301, 3001, 30001, 10008, 103] : List Word),
      (ref [W] []).st.steps = true ∧ (ref [W] []).pc.toNat < (ref [W] []).cfg.memCap
        ∧ (ref [W] []).peek (ref [W] []).pc.toNat = W
        ∧ (W.toInt < 0 ∨ 100000 ≤ W.toInt ∨ W.toNat % 100 ∉ [1, 2, 3, 4, 5, 6, 7, 8, 9, 99]
          ∨ 2 < W.toNat / 100 % 10 ∨ 2 < W.toNat / 1000 % 10 ∨ 2 < W.toNat / 10000 % 10
          ∨ (W.toNat % 100 ∈ [1, 2, 7, 8] ∧ W.toNat / 10000 % 10 = 1)
          ∨ (W.toNat % 100 = 3 ∧ W.toNat / 100 % 10 = 1)) := by
  intro W hW
  simp only [List.mem_cons, List.not_mem_nil, or_false] at hW
  rcases hW with rfl | rfl | rfl | rfl | rfl | rfl | rfl | rfl <;> decide
theorem witness_NoStepOutsideRunning : State.reset.st = .idle ∧ (stepState (ref [99] [])).st = .halted
    ∧ (stepState (ref [] [])).st = .faulted := by decide
theorem witness_StepRunsDecodedInstruction : sAdd.st.steps = true ∧ sAdd.pc.toNat < sAdd.cfg.memCap
    ∧ decode (sAdd.peek sAdd.pc.toNat) = .ok (.add .immediate .immediate .position) := by decide
theorem witness_StepRunsDecodedInstruction_illegal : (ref [103] []).st.steps = true
    ∧ (ref [103] []).pc.toNat < (ref [103] []).cfg.memCap
    ∧ decode ((ref [103] []).peek (ref [103] []).pc.toNat) = .error .immediateDestination := by decide
theorem witness_FetchReadsAtPc_capacity : (small [] [] false).st.steps = true
    ∧ (({ small [] [] false with pc := 8 } : State).cfg.memCap ≤ ({ small [] [] false with pc := 8 } : State).pc.toNat) := by
  decide
theorem witness_FetchReadsAtPc_on_tape : sAdd.pc.toNat < sAdd.cfg.memCap ∧ ¬ sAdd.len ≤ sAdd.pc.toNat := by decide
theorem witness_FetchReadsAtPc_growth : (ref [] []).st.steps = true ∧ (ref [] []).pc.toNat < (ref [] []).cfg.memCap
    ∧ (ref [] []).len ≤ (ref [] []).pc.toNat ∧ ∀ a, (ref [] []).len ≤ a → (ref [] []).peek a = 0 :=
  ⟨by decide, by decide, by decide, fun _ _ => rfl⟩
theorem witness_StepTakesFirstFault_fault : sAdd.st.steps = true ∧
    firstFault (ref [1, -1, -2, -3] []) = ([0, 1], some (.addressFault (-1))) := by decide
theorem witness_StepTakesFirstFault_none : sAdd.st.steps = true ∧ (firstFault sAdd).2 = none := by decide
theorem witness_FaultsArePrecise : (ref [] []).st.steps = true ∧ step (ref [] []) = .next (stepState (ref [] []))
    ∧ (stepState (ref [] [])).st = .faulted := ⟨by decide, step_eq_stepState _, by decide⟩
theorem witness_MemReadChecksThenGrows : (7 : Int) < ((small [] [] false).cfg.memCap : Int)
    ∧ (((small [] [] false).len : Int) ≤ 7) ∧ ∀ b, (small [] [] false).len ≤ b → (small [] [] false).peek b = 0 :=
  ⟨by decide, by decide, fun _ _ => rfl⟩
theorem witness_MemWriteChangesOneCell : (-1 : Int) < 0
    ∧ (((small [] [] false).cfg.memCap : Int) ≤ 8 ∧ (0 : Int) ≤ 8)
    ∧ ((0 : Int) ≤ 7 ∧ (7 : Int) < ((small [] [] false).cfg.memCap : Int)) := by decide
theorem witness_DestinationModesResolve : (Mode.relative = .position ∧ (3 : Int) = (2 : Word).toInt)
    ∨ (Mode.relative = .relative ∧ (3 : Int) = (2 : Word).toInt + ({ sAdd with rb := 1 } : State).rb.toInt) := by decide
theorem witness_StoreIsSeenByNextFetch : ∃ t, memWrite (0 : Nat) 99 sAdd = .ok () t ∧ t.pc.toNat = 0 ∧ t.st.steps = true
    ∧ decode 99 = .ok (.halt .position .position .position) :=
  ⟨sAdd.store 0 99, by decide, by decide, by decide, by decide⟩
/-- For AddStoresWrappedSum, MulStoresWrappedProduct, LtStoresSignedComparison and EqStoresEquality. -/
theorem witness_storing : SrcReady sAdd 1 .immediate ∧ SrcReady sAdd 2 .immediate ∧ DstReady sAdd 3 .position 5 :=
  ⟨srcReady_of (by decide), srcReady_of (by decide), by decide, by decide, by decide⟩
/-- The same four statements, with Relative and Position operands and a nonzero `RB`. -/
theorem witness_storing_relative : SrcReady { sAdd with rb := 1 } 1 .relative ∧ SrcReady { sAdd with rb := 1 } 2 .position
    ∧ DstReady { sAdd with rb := 1 } 3 .relative 6 :=
  ⟨srcReady_of (by decide), srcReady_of (by decide), by decide, by decide, by decide⟩
theorem witness_InReceivesOldestWord : DstReady (ref [3, 5, 99] [4, 6]) 1 .position 5 ∧ (ref [3, 5, 99] [4, 6]).inFifo = 4 :: [6] :=
  ⟨⟨by decide, by decide, by decide⟩, rfl⟩
theorem witness_InOnClosedEmptyPortHalts : DstReady (small [3, 5, 99] [] true) 1 .position 5
    ∧ (small [3, 5, 99] [] true).inFifo = [] ∧ (small [3, 5, 99] [] true).inClosed = true :=
  ⟨⟨by decide, by decide, by decide⟩, rfl, rfl⟩
theorem witness_InOnOpenEmptyPortHolds : DstReady (ref [3, 5, 99] []) 1 .position 5 ∧ (ref [3, 5, 99] []).inFifo = []
    ∧ (ref [3, 5, 99] []).inClosed = false :=
  ⟨⟨by decide, by decide, by decide⟩, rfl, rfl⟩
theorem witness_OutPushesValue_inf : SrcReady (ref [104, 7] []) 1 .immediate ∧ (ref [104, 7] []).outClosed = false
    ∧ (ref [104, 7] []).cfg.outDepth = .inf := ⟨srcReady_of (by decide), rfl, rfl⟩
theorem witness_OutPushesValue_finite : SrcReady (small [104, 7] [] false) 1 .immediate
    ∧ (small [104, 7] [] false).outClosed = false ∧ (small [104, 7] [] false).cfg.outDepth = .finite 1
    ∧ (small [104, 7] [] false).outFifo.length < 1 := ⟨srcReady_of (by decide), rfl, rfl, by decide⟩
theorem witness_OutOnClosedPortDrops : SrcReady { ref [104, 7] [] with outClosed := true } 1 .immediate
    ∧ ({ ref [104, 7] [] with outClosed := true } : State).outClosed = true := ⟨srcReady_of (by decide), rfl⟩
theorem witness_OutOnFullPortHolds : SrcReady { small [104, 7] [] false with outFifo := [1] } 1 .immediate
    ∧ (small [104, 7] [] false).outClosed = false ∧ (small [104, 7] [] false).cfg.outDepth = .finite 1
    ∧ 1 ≤ ({ small [104, 7] [] false with outFifo := [1] } : State).outFifo.length :=
  ⟨srcReady_of (by decide), rfl, rfl, by decide⟩
theorem witness_JtJumpsWhenNonzero : SrcReady (ref [1105, 1, 4] []) 1 .immediate ∧ SrcReady (ref [1105, 1, 4] []) 2 .immediate
    ∧ srcValue (ref [1105, 1, 4] []) 1 .immediate ≠ 0 ∧ 0 ≤ (srcValue (ref [1105, 1, 4] []) 2 .immediate).toInt :=
  ⟨srcReady_of (by decide), srcReady_of (by decide), by decide, by decide⟩
theorem witness_JtJumpsWhenNonzero_not_taken : SrcReady (ref [1105, 0, -1] []) 1 .immediate
    ∧ SrcReady (ref [1105, 0, -1] []) 2 .immediate ∧ ¬ srcValue (ref [1105, 0, -1] []) 1 .immediate ≠ 0 :=
  ⟨srcReady_of (by decide), srcReady_of (by decide), by decide⟩
theorem witness_JfJumpsWhenZero : SrcReady (ref [1106, 0, 4] []) 1 .immediate ∧ SrcReady (ref [1106, 0, 4] []) 2 .immediate
    ∧ srcValue (ref [1106, 0, 4] []) 1 .immediate = 0 ∧ 0 ≤ (srcValue (ref [1106, 0, 4] []) 2 .immediate).toInt :=
  ⟨srcReady_of (by decide), srcReady_of (by decide), by decide, by decide⟩
theorem witness_JfJumpsWhenZero_not_taken : SrcReady (ref [1106, 5, -1] []) 1 .immediate
    ∧ SrcReady (ref [1106, 5, -1] []) 2 .immediate ∧ ¬ srcValue (ref [1106, 5, -1] []) 1 .immediate = 0 :=
  ⟨srcReady_of (by decide), srcReady_of (by decide), by decide⟩
theorem witness_TakenJumpToNegativeTargetFaults : SrcReady (ref [1105, 1, -1] []) 1 .immediate
    ∧ SrcReady (ref [1105, 1, -1] []) 2 .immediate ∧ (srcValue (ref [1105, 1, -1] []) 2 .immediate).toInt < 0
    ∧ srcValue (ref [1105, 1, -1] []) 1 .immediate ≠ 0 ∧ srcValue (ref [1106, 0, -1] []) 1 .immediate = 0 :=
  ⟨srcReady_of (by decide), srcReady_of (by decide), by decide, by decide, by decide⟩
theorem witness_ArbAddsToRelativeBase : SrcReady (ref [109, -5] []) 1 .immediate := srcReady_of (by decide)
theorem witness_StoringInstructionsFrame :
    ∀ i ∈ [Instr.add .immediate .immediate .position, .mul .immediate .immediate .position,
        .lt .immediate .immediate .position, .eq .immediate .immediate .position],
      ∃ t, exec i sAdd = .next t ∧ t.st = .running ∧ paramAddr sAdd 3 .position ≠ some ((6 : Nat) : Int) := by
  intro i hi
  simp only [List.mem_cons, List.not_mem_nil, or_false] at hi
  rcases hi with rfl | rfl | rfl | rfl <;> exact ⟨_, rfl, by decide, by decide⟩
theorem witness_StoringInstructionsFrame_fault :
    ∃ t, exec (.add .immediate .immediate .position) (small [1101, 1, 2, 8, 99] [] false) = .next t ∧ t.st = .faulted :=
  ⟨_, rfl, by decide⟩
theorem witness_InFrame : (∃ t, exec (.inp .position .position .position) (ref [3, 5, 99] [4]) = .next t ∧ t.st = .running)
    ∧ (∃ t, exec (.inp .position .position .position) (small [3, 5, 99] [] true) = .next t ∧ t.st = .halted)
    ∧ (∃ t, exec (.inp .position .position .position) (small [3, 5, 99] [] false) = .next t ∧ t.st = .awaitInput)
    ∧ ∃ t, exec (.inp .position .position .position) (small [3, 8, 99] [] false) = .next t ∧ t.st = .faulted :=
  ⟨⟨_, rfl, by decide⟩, ⟨_, rfl, by decide⟩, ⟨_, rfl, by decide⟩, ⟨_, rfl, by decide⟩⟩
theorem witness_OutFrame : (∃ t, exec (.out .immediate .position .position) (ref [104, 7] []) = .next t ∧ t.st = .running)
    ∧ (∃ t, exec (.out .immediate .position .position) { small [104, 7, 99] [] false with outFifo := [1] } = .next t
        ∧ t.st = .awaitOutput)
    ∧ ∃ t, exec (.out .position .position .position) (ref [4, -7] []) = .next t ∧ t.st = .faulted :=
  ⟨⟨_, rfl, by decide⟩, ⟨_, rfl, by decide⟩, ⟨_, rfl, by decide⟩⟩
theorem witness_JumpFrame : (∃ t, exec (.jt .immediate .immediate .position) (ref [1105, 1, 4] []) = .next t ∧ t.st = .running)
    ∧ ∃ t, exec (.jf .immediate .immediate .position) (ref [1106, 0, -1] []) = .next t ∧ t.st = .faulted :=
  ⟨⟨_, rfl, by decide⟩, ⟨_, rfl, by decide⟩⟩
theorem witness_ArbFrame : (∃ t, exec (.arb .immediate .position .position) (ref [109, 4] []) = .next t ∧ t.st = .running)
    ∧ ∃ t, exec (.arb .position .position .position) (ref [9, -4] []) = .next t ∧ t.st = .faulted :=
  ⟨⟨_, rfl, by decide⟩, ⟨_, rfl, by decide⟩⟩
theorem witness_OnlyArbWritesRelativeBase : step (ref [109, 4] []) = .next (stepState (ref [109, 4] []))
    ∧ (stepState (ref [109, 4] [])).rb ≠ (ref [109, 4] []).rb := ⟨step_eq_stepState _, by decide⟩
theorem witness_StepWritesOnlyItsDestination : step sAdd = .next (stepState sAdd)
    ∧ (stepState sAdd).peek 5 ≠ sAdd.peek 5 := ⟨step_eq_stepState _, by decide⟩
theorem witness_TerminalStatesAreIrreversible : (stepState (ref [99] [])).st = .halted ∧ (stepState (ref [] [])).st = .faulted
    ∧ Action.host .start ≠ .host .reset := by decide
theorem witness_OnlyResetShrinksTapeOrClearsPortBits : Action.core ≠ .host .reset := by decide
theorem witness_HoldsOnlyOnBlockedPort_in : step (small [3, 5, 99] [] false) = .next sHold ∧ sHold.st = .awaitInput :=
  ⟨step_eq_stepState _, by decide⟩
theorem witness_HoldsOnlyOnBlockedPort_out : step { small [104, 7, 99] [] false with outFifo := [1] } = .next sFull
    ∧ sFull.st = .awaitOutput := ⟨step_eq_stepState _, by decide⟩
theorem witness_HaltsOnlyByHaltOrClosedInput : (ref [99] []).st.steps = true
    ∧ step (ref [99] []) = .next (stepState (ref [99] [])) ∧ (stepState (ref [99] [])).st = .halted
    ∧ (stepState (small [3, 5, 99] [] true)).st = .halted :=
  ⟨by decide, step_eq_stepState _, by decide, by decide⟩

/-- A state that meets the invariant: S4 with its input, a step before its IN. -/
abbrev sInv : State := ref [3, 0, 4, 0, 99] [15]

theorem inv_of_empty_closed {s : State} (hc : s.cfg.wf = true) (hm : Memory.wf s.mem) (hl : s.len ≤ s.cfg.memCap)
    (hb : ∀ c ∈ s.mem, c.1 < s.len) (hp : s.pc.toNat ≤ 2 ^ 63 + 3) (hi : Depth.holds s.cfg.inDepth s.inFifo = true)
    (ho : Depth.holds s.cfg.outDepth s.outFifo = true) (h1 : s.hcause ≠ .none ↔ s.st = .halted)
    (h2 : s.fcause ≠ .none ↔ s.st = .faulted) (h3 : s.st ≠ .faulted → s.fpc = 0 ∧ s.fval = 0)
    (h4 : s.outEos = true ↔ s.st = .halted) (h5 : s.st ≠ .awaitInput) (h6 : s.st ≠ .awaitOutput) : Inv s where
  cfg_wf := hc
  mem_wf := hm
  len_le := hl
  beyond := by
    intro a ha
    have get0 : ∀ m : Memory, (∀ c ∈ m, c.1 < s.len) → Memory.get m a = 0 := by
      intro m
      induction m with
      | nil => intro _; rfl
      | cons c r ih =>
        intro h
        have := h c (by simp)
        rw [Memory.get_cons, if_neg (by omega)]
        exact ih fun d hd => h d (by simp [hd])
    exact get0 s.mem hb
  pc_le := hp
  in_fits := hi
  out_fits := ho
  hcause_iff := h1
  fcause_iff := h2
  report_zero := h3
  eos_iff := h4
  await_in := fun h => absurd h h5
  await_out := fun h => absurd h h6

theorem witness_StepKeepsInvariant : Inv sInv ∧ step sInv = .next (stepState sInv) ∧ stepState sInv ≠ sInv :=
  ⟨inv_of_empty_closed (by decide) (by decide) (by decide) (by decide) (by decide) (by decide) (by decide) (by decide)
    (by decide) (by decide) (by decide) (by decide) (by decide), step_eq_stepState _, by decide⟩
theorem witness_HostOperationsKeepInvariant : Inv sInv ∧ (hostOp (.pushIn 3) sInv).2 = .done :=
  ⟨witness_StepKeepsInvariant.1, by decide⟩
theorem witness_FinishedOnlyWhenHaltedAndDrained : Inv (stepState (ref [99] [])) ∧ (stepState (ref [99] [])).st = .halted :=
  ⟨inv_of_empty_closed (by decide) (by decide) (by decide) (by decide) (by decide) (by decide) (by decide) (by decide)
    (by decide) (by decide) (by decide) (by decide) (by decide), by decide⟩
theorem witness_ActionsKeepHoldsSettled : Settled sHold ∧ sHold.st = .awaitInput :=
  ⟨⟨fun _ => ⟨.position, .position, .position, 5, by decide, by decide⟩, fun h => absurd h (by decide)⟩, by decide⟩
theorem witness_HoldRepeatsUnchanged_in : Settled sHold ∧ sHold.holding = true :=
  ⟨witness_ActionsKeepHoldsSettled.1, by decide⟩
theorem witness_HoldRepeatsUnchanged_out : Settled sFull ∧ sFull.holding = true :=
  ⟨⟨fun h => absurd h (by decide), fun _ => ⟨.immediate, .position, .position, 7, by decide, by decide⟩⟩, by decide⟩
theorem witness_PortsDeliverInOrder : noReset [.host (.pushIn 6), .core, .host .popOut] = true := by decide
theorem witness_HistoryIsWhatWasSent : noReset [.core] = true ∧ (runActions [.core] (ref [104, 7] [])).outDrop = false := by
  decide
theorem witness_PushCommutesWithStep : sInv.inClosed = false ∧ step sInv = .next (stepState sInv)
    ∧ (stepState sInv).st ≠ .awaitInput := ⟨by decide, step_eq_stepState _, by decide⟩
theorem witness_LoadAndStartGiveLaunchState : ([3, 0, 99] : List Word).length ≤ (⟨8, .finite 2, .finite 1⟩ : Config).memCap
    ∧ Depth.holds (⟨8, .finite 2, .finite 1⟩ : Config).inDepth [4, 5] = true := by decide
theorem witness_ControllerOperations : (State.reset.st = .idle ∧ State.reset.len < State.reset.cfg.memCap)
    ∧ sAdd.st ≠ .idle
    ∧ ({ State.resetWith ⟨1, .inf, .inf⟩ with len := 1 } : State).cfg.memCap
        ≤ ({ State.resetWith ⟨1, .inf, .inf⟩ with len := 1 } : State).len := by decide
theorem witness_PortOperations : ((small [] [1] false).inClosed = false ∧ (small [] [1] false).cfg.inDepth = .finite 2
      ∧ (small [] [1] false).inFifo.length < 2)
    ∧ (ref [] []).cfg.inDepth = .inf
    ∧ 2 ≤ (small [] [1, 2] false).inFifo.length
    ∧ (small [] [] true).inClosed = true
    ∧ sFull.outClosed = false ∧ sFull.outFifo = [1]
    ∧ (ref [] []).outFifo = []
    ∧ ({ sFull with outClosed := true } : State).outClosed = true := by decide

/-- Core 0 has a word to send, core 1 has room; the links go from 0 to 1 and from 0 to itself. -/
abbrev ySend : System := { cores := [sFull, small [3, 5, 99] [] false], links := [⟨0, 1⟩, ⟨0, 0⟩] }
/-- Core 0 has halted with its output drained; the link goes to core 1. -/
abbrev yHalted : System := { cores := [stepState (ref [99] []), sHold], links := [⟨0, 1⟩] }
/-- Two cores in a ring, each waiting for the other. -/
abbrev yDead : System := { cores := [sHold, sHold], links := ringLinks 2 }

theorem witness_CoresShareNothing : (1 : Nat) ≠ 0 ∧ (ySend.cores[1]?).isSome = true := by decide
theorem witness_TransferMovesOneWord : ySend.links[0]? = some ⟨0, 1⟩ ∧ ySend.links[1]? = some ⟨0, 0⟩
    ∧ ySend.cores[0]? = some sFull ∧ ySend.cores[1]? = some (small [3, 5, 99] [] false)
    ∧ sFull.outFifo = 1 :: [] ∧ sFull.outClosed = false ∧ (small [3, 5, 99] [] false).inClosed = false
    ∧ Depth.hasRoom (small [3, 5, 99] [] false).cfg.inDepth (small [3, 5, 99] [] false).inFifo = true
    ∧ Depth.hasRoom sFull.cfg.inDepth sFull.inFifo = true := by decide
theorem witness_TransferMovesOneWord_disabled : sHold.outFifo = [] ∧ ({ sFull with outClosed := true } : State).outClosed = true
    ∧ (small [] [] true).inClosed = true
    ∧ Depth.hasRoom (small [] [1, 2] false).cfg.inDepth (small [] [1, 2] false).inFifo = false := by decide
theorem witness_LinkClosesOnlyAfterHalt : yHalted.links[0]? = some ⟨0, 1⟩ ∧ yHalted.cores[0]? = some (stepState (ref [99] []))
    ∧ yHalted.cores[1]? = some sHold ∧ Inv (stepState (ref [99] [])) ∧ (stepState (ref [99] [])).st = .halted
    ∧ (stepState (ref [99] [])).outFifo = [] ∧ sHold.inClosed = false :=
  ⟨by decide, by decide, by decide, witness_FinishedOnlyWhenHaltedAndDrained.1, by decide, by decide, by decide⟩
theorem witness_LinkClosesOnlyAfterHalt_running : Inv sInv ∧ sInv.st ≠ .halted := ⟨witness_StepKeepsInvariant.1, by decide⟩
theorem witness_LinkClosesOnlyAfterHalt_undrained : Inv ({ stepState (ref [99] []) with outFifo := [7] } : State)
    ∧ ({ stepState (ref [99] []) with outFifo := [7] } : State).st = .halted
    ∧ ({ stepState (ref [99] []) with outFifo := [7] } : State).outFifo ≠ [] :=
  ⟨inv_of_empty_closed (by decide) (by decide) (by decide) (by decide) (by decide) (by decide) (by decide) (by decide)
    (by decide) (by decide) (by decide) (by decide) (by decide), by decide, by decide⟩
theorem witness_LinkClosesOnlyAfterHalt_closed : Inv (stepState (ref [99] [])) ∧ (stepState (ref [99] [])).st = .halted
    ∧ (stepState (ref [99] [])).outFifo = [] ∧ (small [3, 5, 99] [] true).inClosed = true :=
  ⟨witness_FinishedOnlyWhenHaltedAndDrained.1, by decide, by decide, by decide⟩
theorem witness_HostReadout : (State.reset.st = .idle ∧ sAdd.st = .running ∧ sHold.st = .awaitInput
      ∧ sFull.st = .awaitOutput ∧ (stepState (ref [99] [])).st = .halted ∧ (stepState (ref [] [])).st = .faulted)
    ∧ sFull.valueReady = some 1 ∧ sHold.valueReady = none
    ∧ ({ sFull with outClosed := true } : State).valueReady = none := by decide
theorem witness_DeadlockIsPermanent : (∀ s ∈ yDead.cores, Settled s) ∧ yDead.deadlocked = true
    ∧ ∀ m ∈ [Move.coreStep 0, .transfer 0, .close 1], ∀ i op, m ≠ .host i op := by
  refine ⟨?_, by decide, ?_⟩
  · intro s hs
    simp only [List.mem_cons, List.not_mem_nil, or_false, or_self] at hs
    exact hs ▸ witness_ActionsKeepHoldsSettled.1
  · intro m hm i op
    simp only [List.mem_cons, List.not_mem_nil, or_false] at hm
    rcases hm with rfl | rfl | rfl <;> simp

end Sys2Proof.Tests
end

section
/-! The step of a core that steps, an equation per answer of FETCH and DECODE (spec/40_step_fsm.md rules R93, R94, R102), and
the obligation about it. -/

namespace Sys2Proof.Machine

/-- R102: where FETCH and DECODE yield an instruction, the step is its meaning on the state they left. -/
theorem step_of_fetchDecode_ok {s t : State} {i : Instr} (hs : s.st.steps = true)
    (h : fetchDecode s = .ok i t) : step s = exec i t := by
  rw [step, if_pos hs, h]

/-- R100, R102: where FETCH or DECODE raises, the step takes that fault. -/
theorem step_of_fetchDecode_raised {s t : State} {f : Raised} (hs : s.st.steps = true)
    (h : fetchDecode s = .raised f t) : step s = .next (takeFault f t) := by
  rw [step, if_pos hs, h]

/-- R171: a DecodeFault records the instruction word itself: wrapping its value to a word gives the word back. -/
theorem takeFault_decodeFault (W : Word) (s : State) :
    takeFault (.decodeFault W) s = { s with st := .faulted, fcause := .decodeFault, fpc := s.pc, fval := W } := by
  rw [takeFault, Raised.info, wrap64_toInt, Raised.cause]

/-- R94, R102: a legal word at `PC` is run on the state the fetch left. -/
theorem step_of_decode_ok {s : State} {i : Instr} (hs : s.st.steps = true) (hpc : s.pc.toNat < s.cfg.memCap)
    (hd : decode (s.peek s.pc.toNat) = .ok i) : step s = exec i (s.grow s.pc.toNat) :=
  step_of_fetchDecode_ok hs (fetchDecode_eq_ok.2 ⟨hpc, hd, rfl⟩)

/-- R94, R100: an illegal word at `PC` makes the step take DecodeFault on the state the fetch left. -/
theorem step_of_decode_error {s : State} {e : Illegal} (hs : s.st.steps = true) (hpc : s.pc.toNat < s.cfg.memCap)
    (hd : decode (s.peek s.pc.toNat) = .error e) :
    step s = .next (takeFault (.decodeFault (s.peek s.pc.toNat)) (s.grow s.pc.toNat)) :=
  step_of_fetchDecode_raised hs (fetchDecode_eq_raised.2 (.inr ⟨hpc, ⟨e, hd⟩, rfl, rfl⟩))

/-- Settles O7: the two verdicts of `decode` give the two clauses, and `State.grow` at `PC` is the growth both state. -/
theorem stepRunsDecodedInstruction : Obligations.StepRunsDecodedInstruction := by
  intro s hs hpc
  constructor
  · intro i hd
    exact step_of_decode_ok hs hpc hd
  · intro e hd
    rw [step_of_decode_error hs hpc hd, takeFault_decodeFault]
    rfl

end Sys2Proof.Machine
end

section
/-! The two port buffers over an action and over a run (spec/42_io_ports.md rule R122): what a step and a host operation do to
each buffer, and the obligation that both deliver every word once and in order. -/

namespace Sys2Proof.Machine

/-! ### What one step and one host operation do to the buffers -/

/-- R120: an instruction leaves the input buffer as it is or takes the oldest word out of it. -/
theorem Ended.inFifo_cases {i : Instr} {s t : State} (h : Ended i s t) :
    t.inFifo = s.inFifo ∨ ∃ x, s.inFifo = x :: t.inFifo := by
  cases h with
  | received m b c d x q n hi hd hq hn hc ht => exact .inr ⟨x, by simp [ht, hq]⟩
  | sent m b c hi hr ht =>
    rcases send_cases (srcValue s 1 m) (s.withLen (lengthAfter s.len (srcCells s 1 m))) with
      ⟨-, hs⟩ | ⟨-, -, hs⟩ | ⟨-, -, hs⟩ <;> exact .inl (by simp [ht, hs])
  | stored | inputEnded | inputHeld | jumped | fellThrough | adjusted | halted => left; simp [*]

/-- R121: an instruction leaves the output buffer as it is or appends one word to it. -/
theorem Ended.outFifo_cases {i : Instr} {s t : State} (h : Ended i s t) :
    t.outFifo = s.outFifo ∨ ∃ v, t.outFifo = s.outFifo ++ [v] := by
  cases h with
  | sent m b c hi hr ht =>
    rcases send_cases (srcValue s 1 m) (s.withLen (lengthAfter s.len (srcCells s 1 m))) with
      ⟨-, hs⟩ | ⟨-, -, hs⟩ | ⟨-, -, hs⟩
    · exact .inl (by simp [ht, hs])
    · exact .inr ⟨srcValue s 1 m, by simp [ht, hs]⟩
    · exact .inl (by simp [ht, hs])
  | stored | received | inputEnded | inputHeld | jumped | fellThrough | adjusted | halted => left; simp [*]

theorem stepState_inFifo_cases (s : State) :
    (stepState s).inFifo = s.inFifo ∨ ∃ x, s.inFifo = x :: (stepState s).inFifo := by
  rcases step_ended (step_eq_stepState s) with ⟨-, h⟩ | ⟨-, f, n, -, -, h⟩ | ⟨-, i, -, -, h⟩
  · exact .inl (by rw [h])
  · exact .inl (by simp [h])
  · simpa using h.inFifo_cases

theorem stepState_outFifo_cases (s : State) :
    (stepState s).outFifo = s.outFifo ∨ ∃ v, (stepState s).outFifo = s.outFifo ++ [v] := by
  rcases step_ended (step_eq_stepState s) with ⟨-, h⟩ | ⟨-, f, n, -, -, h⟩ | ⟨-, i, -, -, h⟩
  · exact .inl (by rw [h])
  · exact .inl (by simp [h])
  · simpa using h.outFifo_cases

/-- R28: of the host operations without a reset, an enabled push alone changes the input buffer. -/
theorem hostOp_inFifo {op : HostOp} (hop : op ≠ .reset) (s : State) :
    (hostOp op s).1.inFifo = s.inFifo ++ pushedWords [.host op] s := by
  cases op with
  | reset => exact absurd rfl hop
  | pushIn v => by_cases he : HostOp.enabled (.pushIn v) s <;> simp [hostOp, pushedWords, he, HostOp.effect, Fifo.push]
  | load | start | closeIn | popOut | closeOut | readMem =>
    unfold hostOp
    split <;> simp [HostOp.effect, pushedWords]

/-- R30: of the host operations without a reset, a pop alone changes the output buffer, by the word it returns. -/
theorem poppedWords_append_hostOp_outFifo {op : HostOp} (hop : op ≠ .reset) (s : State) :
    poppedWords [.host op] s ++ (hostOp op s).1.outFifo = s.outFifo := by
  cases op with
  | reset => exact absurd rfl hop
  | popOut =>
    cases hq : s.outFifo with
    | nil => simp [hostOp, poppedWords, HostOp.enabled, hq]
    | cons v q =>
      cases hc : s.outClosed <;>
        simp [hostOp, poppedWords, HostOp.enabled, HostOp.effect, HostOp.reply, hq, hc]
  | load | start | pushIn | closeIn | closeOut | readMem =>
    unfold hostOp
    split <;> simp [HostOp.effect, poppedWords]

/-! ### One action -/

/-- R122, one action: the word taken and what is left in the input buffer are what was there and the word pushed. -/
theorem receivedWords_append_act_inFifo {a : Action} (ha : a ≠ .host .reset) (s : State) :
    receivedWords [a] s ++ (act a s).inFifo = s.inFifo ++ pushedWords [a] s := by
  cases a with
  | core => rcases stepState_inFifo_cases s with h | ⟨x, h⟩ <;> simp [receivedWords, pushedWords, act, h]
  | host op => exact hostOp_inFifo (by simpa using ha) s

/-- R122, one action: the word popped and what is left in the output buffer are what was there and the word sent. -/
theorem poppedWords_append_act_outFifo {a : Action} (ha : a ≠ .host .reset) (s : State) :
    poppedWords [a] s ++ (act a s).outFifo = s.outFifo ++ sentWords [a] s := by
  cases a with
  | core => rcases stepState_outFifo_cases s with h | ⟨v, h⟩ <;> simp [poppedWords, sentWords, act, h]
  | host op => simpa [sentWords, act] using poppedWords_append_hostOp_outFifo (by simpa using ha) s

/-! ### Runs -/

theorem runActions_cons (a : Action) (as : List Action) (s : State) :
    runActions (a :: as) s = runActions as (act a s) := rfl

theorem noReset_cons {a : Action} {as : List Action} :
    noReset (a :: as) = true ↔ a ≠ .host .reset ∧ noReset as = true := by
  simp [noReset]

/-- The words of a run are those of its actions, one after the other. -/
structure AddsUp (words : List Action → State → List Word) : Prop where
  nil : ∀ s, words [] s = []
  cons : ∀ a as s, words (a :: as) s = words [a] s ++ words as (act a s)

theorem addsUp_pushedWords : AddsUp pushedWords where
  nil _ := rfl
  cons _ _ _ := by simp [pushedWords]

theorem addsUp_receivedWords : AddsUp receivedWords where
  nil _ := rfl
  cons _ _ _ := by simp [receivedWords]

theorem addsUp_sentWords : AddsUp sentWords where
  nil _ := rfl
  cons _ _ _ := by simp [sentWords]

theorem addsUp_poppedWords : AddsUp poppedWords where
  nil _ := rfl
  cons _ _ _ := by simp [poppedWords]

/-- A buffer that every action but a reset conserves is conserved over every run without a reset. -/
theorem fifo_conserved_over_run {taken put : List Action → State → List Word} {fifo : State → Fifo}
    (htaken : AddsUp taken) (hput : AddsUp put)
    (hact : ∀ {a}, a ≠ .host .reset → ∀ s, taken [a] s ++ fifo (act a s) = fifo s ++ put [a] s)
    {as : List Action} (hr : noReset as = true) (s : State) :
    taken as s ++ fifo (runActions as s) = fifo s ++ put as s := by
  induction as generalizing s with
  | nil => simp [htaken.nil, hput.nil, runActions]
  | cons a as ih =>
    obtain ⟨ha, has⟩ := noReset_cons.1 hr
    calc taken (a :: as) s ++ fifo (runActions (a :: as) s)
        = taken [a] s ++ (taken as (act a s) ++ fifo (runActions as (act a s))) := by
          rw [htaken.cons a as s, runActions_cons, List.append_assoc]
      _ = (taken [a] s ++ fifo (act a s)) ++ put as (act a s) := by rw [ih has, List.append_assoc]
      _ = fifo s ++ put (a :: as) s := by rw [hact ha, hput.cons a as s, List.append_assoc]

/-- Settles O48: each action but a reset conserves both buffers in order, and so does every run of such actions. -/
theorem portsDeliverInOrder : Obligations.PortsDeliverInOrder := by
  intro as s hr
  exact ⟨fifo_conserved_over_run addsUp_receivedWords addsUp_pushedWords receivedWords_append_act_inFifo hr s,
    fifo_conserved_over_run addsUp_poppedWords addsUp_sentWords poppedWords_append_act_outFifo hr s⟩

end Sys2Proof.Machine
end

section
/-! The facts about the state's operations that the sections below share: one equation per branch of each operation, and what
each leaves alone. -/

namespace Sys2Proof.Machine

/-! ### Cells under the updates that store nothing -/

@[simp] theorem State.complete_peek (s : State) (n a : Nat) : (s.complete n).peek a = s.peek a := rfl
@[simp] theorem State.jumpTo_peek (s : State) (b : Word) (a : Nat) : (s.jumpTo b).peek a = s.peek a := rfl
@[simp] theorem State.hold_peek (s : State) (x : ExecState) (a : Nat) : (s.hold x).peek a = s.peek a := rfl
@[simp] theorem State.enterHalted_peek (s : State) (c : HaltCause) (a : Nat) :
    (s.enterHalted c).peek a = s.peek a := rfl
@[simp] theorem State.adjustBase_peek (s : State) (v : Word) (a : Nat) : (s.adjustBase v).peek a = s.peek a := rfl
@[simp] theorem takeFault_peek (f : Raised) (s : State) (a : Nat) : (takeFault f s).peek a = s.peek a := rfl

/-! ### Growth, `MemWrite`, destinations -/

/-- D4: growth over a cell already on the tape is none. -/
theorem State.grow_eq_self {s : State} {a : Nat} (h : a < s.len) : s.grow a = s := by
  rw [State.grow, Nat.max_eq_left h]

theorem State.grow_eq (s : State) (a : Nat) : s.grow a = if s.len ≤ a then { s with len := a + 1 } else s := by
  split
  · next h => rw [State.grow, Nat.max_eq_right (by omega)]
  · next h => exact State.grow_eq_self (by omega)

theorem memWrite_eq_ok {a : Int} {v : Word} {s t : State} {u : Unit} (h : memWrite a v s = .ok u t) :
    0 ≤ a ∧ a < (s.cfg.memCap : Int) ∧ t = s.store a.toNat v := by
  unfold memWrite at h
  split at h
  · cases h
  · next n hn =>
    obtain ⟨h0, hc, rfl⟩ := checkAddr_eq_ok.1 hn
    injection h with _ h
    exact ⟨h0, hc, h.symm⟩

theorem resolveDst_eq {m : Mode} {p : Word} {s : State} {d : Int} (h : effAddr m p s.rb = some d) :
    resolveDst m p s =
      if d < 0 then .raised (.addressFault d) s
      else if (s.cfg.memCap : Int) ≤ d then .raised (.capacityFault d) s
      else .ok d.toNat s := by
  rw [resolveDst, h]
  dsimp only
  rw [checkAddr]
  split_ifs <;> rfl

theorem DstReady.lt {s : State} {i d : Nat} {m : Mode} (h : DstReady s i m d) : d < s.cfg.memCap := h.2.2

/-! ### `receive` (R120), an equation per branch -/

theorem receive_of_cons {d : Nat} {s : State} {x : Word} {q : Fifo} (hd : d < s.cfg.memCap) (hq : s.inFifo = x :: q) :
    receive d s = .ok () ((({ s with inFifo := q } : State).store d x).complete 2) := by
  rw [receive_of_lt hd, hq]

theorem receive_of_closed {d : Nat} {s : State} (hq : s.inFifo = []) (hc : s.inClosed = true) :
    receive d s = .ok () (s.enterHalted .inputClosed) := by
  simp [receive, hq, hc]

theorem receive_of_open {d : Nat} {s : State} (hq : s.inFifo = []) (hc : s.inClosed = false) :
    receive d s = .ok () (s.hold .awaitInput) := by
  simp [receive, hq, hc]

/-! ### `send` (R121): an equation per branch, and what it never touches -/

theorem Depth.hasRoom_eq_true {d : Depth} {q : Fifo} :
    Depth.hasRoom d q = true ↔ d = .inf ∨ ∃ n, d = .finite n ∧ q.length < n := by
  cases d <;> simp [Depth.hasRoom]

theorem Depth.hasRoom_eq_false {d : Depth} {q : Fifo} :
    Depth.hasRoom d q = false ↔ ∃ n, d = .finite n ∧ n ≤ q.length := by
  cases d <;> simp [Depth.hasRoom]

theorem send_of_closed {a : Word} {s : State} (hc : s.outClosed = true) :
    send a s = ({ s with outLog := s.outLog ++ [a], outDrop := true } : State).complete 2 := by
  simp [send, hc]

theorem send_of_room {a : Word} {s : State} (hc : s.outClosed = false)
    (hr : Depth.hasRoom s.cfg.outDepth s.outFifo = true) :
    send a s = ({ s with outLog := s.outLog ++ [a], outFifo := s.outFifo ++ [a] } : State).complete 2 := by
  simp [send, hc, hr, Fifo.push]

theorem send_of_full {a : Word} {s : State} (hc : s.outClosed = false)
    (hr : Depth.hasRoom s.cfg.outDepth s.outFifo = false) : send a s = s.hold .awaitOutput := by
  simp [send, hc, hr]

/-- R98, R121: a send writes `PC`, `ST`, the output buffer, `OUT_DROP` and the history only. -/
theorem send_frame (v : Word) (s : State) : send v s = { s with
    pc := (send v s).pc, st := (send v s).st, outFifo := (send v s).outFifo, outDrop := (send v s).outDrop,
    outLog := (send v s).outLog } := by
  unfold send
  split_ifs <;> rfl

@[simp] theorem send_cfg (v : Word) (s : State) : (send v s).cfg = s.cfg := by rw [send_frame]
@[simp] theorem send_len (v : Word) (s : State) : (send v s).len = s.len := by rw [send_frame]
@[simp] theorem send_rb (v : Word) (s : State) : (send v s).rb = s.rb := by rw [send_frame]
@[simp] theorem send_hcause (v : Word) (s : State) : (send v s).hcause = s.hcause := by rw [send_frame]
@[simp] theorem send_fcause (v : Word) (s : State) : (send v s).fcause = s.fcause := by rw [send_frame]
@[simp] theorem send_fpc (v : Word) (s : State) : (send v s).fpc = s.fpc := by rw [send_frame]
@[simp] theorem send_fval (v : Word) (s : State) : (send v s).fval = s.fval := by rw [send_frame]
@[simp] theorem send_inFifo (v : Word) (s : State) : (send v s).inFifo = s.inFifo := by rw [send_frame]
@[simp] theorem send_inClosed (v : Word) (s : State) : (send v s).inClosed = s.inClosed := by rw [send_frame]
@[simp] theorem send_outClosed (v : Word) (s : State) : (send v s).outClosed = s.outClosed := by rw [send_frame]
@[simp] theorem send_outEos (v : Word) (s : State) : (send v s).outEos = s.outEos := by rw [send_frame]
@[simp] theorem send_peek (v : Word) (s : State) (a : Nat) : (send v s).peek a = s.peek a := by
  rw [send_frame]
  rfl

/-- R121, R126: a send completes, or it holds on a full, open port and changes nothing else. -/
theorem send_running_or_held (v : Word) (s : State) :
    (send v s).st = .running ∨
      (s.outClosed = false ∧ Depth.hasRoom s.cfg.outDepth s.outFifo = false ∧ send v s = s.hold .awaitOutput) := by
  rcases send_cases v s with ⟨-, h⟩ | ⟨-, -, h⟩ | h
  · exact .inl (by rw [h]; rfl)
  · exact .inl (by rw [h]; rfl)
  · exact .inr h

theorem send_outDrop_of_dropped (v : Word) {s : State} (h : s.outDrop = true) : (send v s).outDrop = true := by
  unfold send
  split_ifs <;> simp [h]

theorem send_st_ne_faulted (a : Word) (s : State) : (send a s).st ≠ .faulted := by
  rcases send_running_or_held a s with h | ⟨-, -, h⟩ <;> simp [h]

/-! ### The executor's states, and the causes of a fault -/

theorem ExecState.steps_ne {x : ExecState} (h : x.steps = true) : x ≠ .halted ∧ x ≠ .faulted := by
  cases x <;> simp_all [ExecState.steps]

theorem ExecState.steps_eq_false {x : ExecState} : x.steps = false ↔ x = .idle ∨ x = .halted ∨ x = .faulted := by
  cases x <;> simp [ExecState.steps]

theorem ExecState.steps_of_terminal {x : ExecState} (h : x.terminal = true) : x.steps = false := by
  cases x <;> simp_all [ExecState.terminal, ExecState.steps]

/-- R90: outside RUNNING and the holds a step answers the same state. -/
theorem step_of_not_steps {s : State} (h : s.st.steps = false) : step s = .next s := by
  rw [step, if_neg (by simp [h])]

theorem stepState_of_step {s t : State} (h : step s = .next t) : stepState s = t := by rw [stepState, h]

theorem Raised.cause_ne_none (f : Raised) : f.cause ≠ .none := by cases f <;> simp [Raised.cause]

/-! ### Host operations (R25 to R32) -/

theorem hostOp_of_enabled {op : HostOp} {s : State} (h : op.enabled s = true) :
    hostOp op s = (op.effect s, op.reply s) := if_pos h

theorem hostOp_of_disabled {op : HostOp} {s : State} (h : op.enabled s = false) : hostOp op s = (s, .refused) :=
  if_neg (by simp [h])

theorem hostOp_fst (op : HostOp) (s : State) : (hostOp op s).1 = if op.enabled s then op.effect s else s := by
  unfold hostOp
  split <;> rfl

/-- A host operation keeps what its effect keeps when it is enabled. -/
theorem hostOp_induction {p : State → Prop} {op : HostOp} {s : State} (h : p s)
    (he : op.enabled s = true → p (op.effect s)) : p (hostOp op s).1 := by
  rw [hostOp_fst]
  split
  · next hen => exact he hen
  · exact h

/-- R26: a load in IDLE below `MEM_CAP` stores its word at `LEN`. -/
theorem hostOp_load {s : State} (v : Word) (hst : s.st = .idle) (hlen : s.len < s.cfg.memCap) :
    hostOp (.load v) s = (s.store s.len v, .done) :=
  hostOp_of_enabled (by simp [HostOp.enabled, hst, hlen])

/-- R28: a push on an open port with room. -/
theorem hostOp_pushIn {s : State} (v : Word) (hc : s.inClosed = false)
    (hroom : Depth.hasRoom s.cfg.inDepth s.inFifo = true) :
    hostOp (.pushIn v) s = ({ s with inFifo := s.inFifo ++ [v] }, .done) :=
  hostOp_of_enabled (by simp [HostOp.enabled, hc, hroom])

/-- R26 to R32: outside IDLE, every host operation but a reset touches the ports only. -/
theorem hostOp_changes_ports_only {op : HostOp} {s : State} (hop : op ≠ .reset) (hidle : s.st ≠ .idle) :
    ∃ q c q' c', (hostOp op s).1 = { s with inFifo := q, inClosed := c, outFifo := q', outClosed := c' } := by
  rw [hostOp_fst]
  split
  · next hen =>
    cases op with
    | reset => exact absurd rfl hop
    | load v => simp [HostOp.enabled, hidle] at hen
    | start => simp [HostOp.enabled, hidle] at hen
    | pushIn | closeIn | popOut | closeOut | readMem => exact ⟨_, _, _, _, rfl⟩
  · exact ⟨_, _, _, _, rfl⟩

end Sys2Proof.Machine
end

section
/-! The decoder said once (spec/30_encoding.md): a word decodes to `i` exactly when `i` is well-formed, the word has at most
five digits, and they are the digits of `i`. The obligations about the encoding follow from that one equivalence. -/

namespace Sys2Proof

open Sys2Proof.Laws Sys2Proof.Machine

/-! ### The decoder's tests, one equivalence each -/

theorem Mode.ofDigit_eq_some {d : Nat} {m : Mode} : Mode.ofDigit d = some m ↔ m.digit = d := by
  unfold Mode.ofDigit
  split_ifs <;> cases m <;> simp [Mode.digit] <;> omega

theorem Mode.digit_injective : Function.Injective Mode.digit := by
  intro m m' h
  exact Option.some.inj ((Mode.ofDigit_eq_some.2 h).symm.trans (Mode.ofDigit_eq_some.2 rfl))

theorem Mode.digit_eq_one {m : Mode} : m.digit = 1 ↔ m = .immediate := Mode.digit_injective.eq_iff (b := .immediate)

theorem Instr.opcode_mem (i : Instr) : i.opcode ∈ [1, 2, 3, 4, 5, 6, 7, 8, 9, 99] := by
  cases i <;> simp [Instr.opcode]

theorem Instr.opcode_lt (i : Instr) : i.opcode < 100 := by
  cases i <;> simp [Instr.opcode]

/-- R71 in digits: no destination parameter has mode digit 1. -/
theorem Instr.wellFormed_iff_digits (i : Instr) :
    i.WellFormed ↔ ¬ (i.opcode ∈ [1, 2, 7, 8] ∧ i.mode3.digit = 1) ∧ ¬ (i.opcode = 3 ∧ i.mode1.digit = 1) := by
  cases i <;> simp [Instr.WellFormed, Instr.wellFormed, Instr.opcode, Instr.mode1, Instr.mode3, Mode.digit_eq_one]

/-- R66, R67, R71: `decodeFields` yields the well-formed instruction with the given opcode and modes. -/
theorem decodeFields_eq_ok {op : Nat} {m1 m2 m3 : Mode} {i : Instr} :
    decodeFields op m1 m2 m3 = .ok i ↔
      i.WellFormed ∧ i.opcode = op ∧ i.mode1 = m1 ∧ i.mode2 = m2 ∧ i.mode3 = m3 := by
  constructor
  · intro h
    simp only [decodeFields, ite_eq_iff, reduceCtorEq, and_false, false_or, or_false, Except.ok.injEq] at h
    casesm* _ ∨ _, _ ∧ _
    all_goals subst_vars
    all_goals simp_all only [Instr.WellFormed, Instr.wellFormed, Instr.opcode, Instr.mode1, Instr.mode2, Instr.mode3,
      ne_eq, not_false_eq_true, decide_true, and_self]
  · rintro ⟨hw, rfl, rfl, rfl, rfl⟩
    cases i <;> simp_all [Instr.WellFormed, Instr.wellFormed, decodeFields, Instr.opcode, Instr.mode1,
      Instr.mode2, Instr.mode3]

/-- R66: the value `n` of a non-negative word decodes to `i` exactly when `i` is well-formed and has the digits of `n`. -/
theorem decodeNat_eq_ok {n : Nat} {i : Instr} :
    decodeNat n = .ok i ↔ i.WellFormed ∧ n / 100000 = 0 ∧ i.opcode = n % 100 ∧ i.mode1.digit = n / 100 % 10
      ∧ i.mode2.digit = n / 1000 % 10 ∧ i.mode3.digit = n / 10000 % 10 := by
  unfold decodeNat
  simp only [decimalDigit, Nat.reducePow]
  split
  · next h => simp [h]
  · next h =>
    split
    · next m1 m2 m3 h1 h2 h3 =>
      rw [Mode.ofDigit_eq_some] at h1 h2 h3
      rw [decodeFields_eq_ok, ← h1, ← h2, ← h3, Mode.digit_injective.eq_iff, Mode.digit_injective.eq_iff,
        Mode.digit_injective.eq_iff]
      simp [not_not.1 h]
    · next hne =>
      simp only [reduceCtorEq, false_iff]
      rintro ⟨-, -, -, e1, e2, e3⟩
      exact hne i.mode1 i.mode2 i.mode3 (Mode.ofDigit_eq_some.2 e1) (Mode.ofDigit_eq_some.2 e2)
        (Mode.ofDigit_eq_some.2 e3)

theorem toInt_nonneg_of_lt {W : Word} (h : W.toNat / 100000 = 0) : 0 ≤ W.toInt := by
  rw [BitVec.toInt_eq_toNat_of_lt (by omega)]
  omega

/-- R66: a word decodes to `i` exactly when `i` is well-formed and has the digits of the word. -/
theorem decode_eq_ok {W : Word} {i : Instr} :
    decode W = .ok i ↔ i.WellFormed ∧ W.toNat / 100000 = 0 ∧ i.opcode = W.toNat % 100
      ∧ i.mode1.digit = W.toNat / 100 % 10 ∧ i.mode2.digit = W.toNat / 1000 % 10
      ∧ i.mode3.digit = W.toNat / 10000 % 10 := by
  rw [← decodeNat_eq_ok, decode]
  split
  · next hneg =>
    simp only [reduceCtorEq, false_iff, decodeNat_eq_ok]
    rintro ⟨-, hhigh, -⟩
    exact absurd (toInt_nonneg_of_lt hhigh) (by omega)
  · rfl

/-! ### Encoding and decoding are inverse to each other -/

theorem Instr.encode_toNat (i : Instr) : (encode i).toNat
    = i.opcode + 100 * i.mode1.digit + 1000 * i.mode2.digit + 10000 * i.mode3.digit :=
  Laws.encode_toNat i i.opcode_lt

/-- R61, R66: the words that decode are the encodings of the well-formed instructions. -/
theorem decode_eq_ok_iff_encode {W : Word} {i : Instr} : decode W = .ok i ↔ i.WellFormed ∧ encode i = W := by
  have hop := i.opcode_lt
  have h1 := digit_le_two i.mode1
  have h2 := digit_le_two i.mode2
  have h3 := digit_le_two i.mode3
  rw [decode_eq_ok, ← BitVec.toNat_inj, i.encode_toNat]
  refine and_congr_right fun _ => ⟨fun ⟨hhigh, ho, e1, e2, e3⟩ => ?_, fun h => ?_⟩ <;> omega

/-- Settles O1: one direction of `decode_eq_ok_iff_encode`. -/
theorem decodeInvertsEncode : Obligations.DecodeInvertsEncode :=
  fun _ hw => decode_eq_ok_iff_encode.2 ⟨hw, rfl⟩

/-- Settles O2: the other direction of `decode_eq_ok_iff_encode`. -/
theorem encodeInvertsDecode : Obligations.EncodeInvertsDecode :=
  fun _ _ h => (decode_eq_ok_iff_encode.1 h).symm

/-! ### The legal words -/

/-- Settles O3: `decode_eq_ok` with well-formedness written in digits; the range tests hold of every instruction's digits. -/
theorem decodeAcceptsExactlyLegalWords : Obligations.DecodeAcceptsExactlyLegalWords := by
  intro W i
  rw [decode_eq_ok, i.wellFormed_iff_digits]
  constructor
  · rintro ⟨⟨hd3, hd1⟩, hhigh, ho, e1, e2, e3⟩
    rw [ho, e3] at hd3
    rw [ho, e1] at hd1
    exact ⟨⟨toInt_nonneg_of_lt hhigh, hhigh, e1 ▸ digit_le_two _, e2 ▸ digit_le_two _, e3 ▸ digit_le_two _,
      ho ▸ i.opcode_mem, hd3, hd1⟩, ho, e1, e2, e3⟩
  · rintro ⟨⟨-, hhigh, -, -, -, -, hd3, hd1⟩, ho, e1, e2, e3⟩
    rw [← ho, ← e3] at hd3
    rw [← ho, ← e1] at hd1
    exact ⟨⟨hd3, hd1⟩, hhigh, ho, e1, e2, e3⟩

theorem exists_decode_error_of_not_legalWord {W : Word} (h : ¬ LegalWord W) : ∃ e, decode W = .error e := by
  cases hd : decode W with
  | error e => exact ⟨e, rfl⟩
  | ok i => exact absurd ((decodeAcceptsExactlyLegalWords W i).1 hd).1 h

/-- Settles O4, by evaluating the decoder. -/
theorem sampleWordsDecode : Obligations.SampleWordsDecode := by
  unfold Obligations.SampleWordsDecode
  decide

/-- Settles O5: each of the reasons fails a test of `LegalWord`, so the word does not decode. -/
theorem illegalEncodingTakesDecodeFault : Obligations.IllegalEncodingTakesDecodeFault := by
  intro s W hs hpc hW hbad
  have hill : ¬ LegalWord W := by
    rintro ⟨hpos, hhigh, h1, h2, h3, hop, hd3, hd1⟩
    have hsize : W.toInt = W.toNat := BitVec.toInt_eq_toNat_of_lt (by omega)
    rcases hbad with h | h | h | h | h | h | h | h
    · omega
    · omega
    · exact h hop
    · omega
    · omega
    · omega
    · exact hd3 h
    · exact hd1 h
  obtain ⟨e, he⟩ := exists_decode_error_of_not_legalWord hill
  subst hW
  rw [step_of_decode_error hs hpc he, takeFault_decodeFault]
  rfl

end Sys2Proof
end

section
/-! The accesses to memory, the addressing modes, and the effect of each instruction whose parameters resolve
(spec/20_memory.md, spec/40_step_fsm.md sections 2 and 3, spec/41 to 46). -/

namespace Sys2Proof.Machine

/-! ### Memory accesses -/

/-- Settles O11: the three outcomes of the check; `State.grow` is the growth. -/
theorem memReadChecksThenGrows : Obligations.MemReadChecksThenGrows := by
  intro a s
  have hok : ∀ {n : Nat}, n < s.cfg.memCap →
      memRead n s = .ok (s.peek n) (if s.len ≤ n then { s with len := n + 1 } else s) := fun h => by
    rw [memRead_of_lt h, State.grow_eq]
  refine ⟨?_, fun hcap hlen hzero => ?_⟩
  · split
    · next h => exact memRead_eq_raised.2 ⟨rfl, .inl ⟨h, rfl⟩⟩
    · next h =>
      split
      · next hc => exact memRead_eq_raised.2 ⟨rfl, .inr ⟨by omega, hc, rfl⟩⟩
      · next hc =>
        obtain ⟨n, rfl⟩ := Int.eq_ofNat_of_zero_le (by omega : 0 ≤ a)
        simpa using hok (by omega : n < s.cfg.memCap)
  · obtain ⟨n, rfl⟩ := Int.eq_ofNat_of_zero_le (by omega : 0 ≤ a)
    rw [hok (by omega), if_pos (by omega), hzero n (by omega)]
    rfl

/-- Settles O12: the three outcomes of the check; `State.peek_store` says which cell changes. -/
theorem memWriteChangesOneCell : Obligations.MemWriteChangesOneCell := by
  intro a v s
  refine ⟨fun h => ?_, fun hc h0 => ?_, fun h0 hc => ?_⟩
  · rw [memWrite, checkAddr_eq_error.2 (.inl ⟨h, rfl⟩)]
  · rw [memWrite, checkAddr_eq_error.2 (.inr ⟨h0, hc, rfl⟩)]
  · obtain ⟨n, rfl⟩ := Int.eq_ofNat_of_zero_le h0
    refine ⟨s.store n v, memWrite_of_lt (by omega), ?_, ?_, fun b hb => ?_⟩
    · have hlen : max s.len (n + 1) = if (s.len : Int) ≤ n then n + 1 else s.len := by split <;> omega
      rw [Int.toNat_natCast, ← hlen]
      rfl
    · rw [State.peek_store, if_pos (Int.toNat_natCast n)]
    · rw [State.peek_store, if_neg (by simpa using hb)]

/-- Settles O15: the fetch reads the stored word, on a tape that covers it already. -/
theorem storeIsSeenByNextFetch : Obligations.StoreIsSeenByNextFetch := by
  rintro s t a v i hw rfl hs hd
  obtain ⟨-, hc, ht⟩ := memWrite_eq_ok hw
  rw [Int.toNat_natCast] at ht
  have hpeek : t.peek t.pc.toNat = v := by
    conv_lhs => arg 1; rw [ht]
    rw [State.peek_store, if_pos rfl]
  have hcfg : t.cfg = s.cfg := by rw [ht]; rfl
  have hlen : t.pc.toNat < t.len := by
    conv_rhs => rw [ht]
    exact Nat.lt_of_lt_of_le (Nat.lt_succ_self _) (Nat.le_max_right _ _)
  rw [step_of_decode_ok hs (by rw [hcfg]; omega) (hpeek ▸ hd), State.grow_eq_self hlen]

/-! ### The fetch -/

/-- R67: 0 is no instruction. -/
theorem decode_zero : decode 0 = .error .opcode := by decide

/-- Settles O8: `fetch_eq`, and the two faults of a step whose fetch is off the tape. -/
theorem fetchReadsAtPc : Obligations.FetchReadsAtPc := by
  intro s
  refine ⟨fun hc => ?_, fun hc => ?_, fun hs => ⟨fun hc => ?_, fun hc hlen hzero => ?_⟩⟩
  · rw [fetch_eq, if_neg (by omega)]
  · rw [fetch_eq, if_pos hc, State.grow_eq]
  · have hpc : wrap64 (s.pc.toNat : Nat) = s.pc := by simp [wrap64]
    rw [step_of_fetchDecode_raised hs (fetchDecode_eq_raised.2 (.inl ⟨hc, rfl, rfl⟩)), takeFault, Raised.info, hpc]
    rfl
  · have hword := hzero _ hlen
    rw [step_of_decode_error hs hc (by rw [hword]; exact decode_zero), takeFault_decodeFault, hword, State.grow_eq,
      if_pos hlen]

/-! ### Addressing modes -/

/-- Settles O13, by the definition of the effective address in each mode. -/
theorem sourceModesResolve : Obligations.SourceModesResolve := fun _ _ => ⟨rfl, rfl, rfl⟩

/-- Settles O14: both modes have an effective address, which is then checked. -/
theorem destinationModesResolve : Obligations.DestinationModesResolve := by
  rintro p s m d (⟨rfl, rfl⟩ | ⟨rfl, rfl⟩)
  · exact resolveDst_eq rfl
  · exact resolveDst_eq rfl

/-! ### The storing instructions -/

/-- R98: what ADD, MUL, LT and EQ leave, field by field. -/
theorem storeResult_eq {g : Word → Word → Word} {m1 m2 m3 : Mode} {s : State} {d : Nat}
    (h1 : SrcReady s 1 m1) (h2 : SrcReady s 2 m2) (h3 : DstReady s 3 m3 d) :
    storeResult g m1 m2 m3 s = .next { s with
      mem := Memory.set s.mem d (g (srcValue s 1 m1) (srcValue s 2 m2))
      len := lengthAfter s.len (srcCells s 1 m1 ++ srcCells s 2 m2 ++ [s.pc.toNat + 3, d])
      pc := s.pc + 4
      st := .running } := by
  have hlen : lengthAfter s.len (srcCells s 1 m1 ++ srcCells s 2 m2 ++ [s.pc.toNat + 3, d])
      = max (lengthAfter s.len (srcCells s 1 m1 ++ srcCells s 2 m2 ++ [s.pc.toNat + 3])) (d + 1) := by
    simp only [lengthAfter_append, lengthAfter_cons, lengthAfter_nil]
  rw [storeResult_of_ready h1 h2 h3, hlen]
  rfl

/-- Settles O16. -/
theorem addStoresWrappedSum : Obligations.AddStoresWrappedSum :=
  fun _ _ _ _ _ h1 h2 h3 => storeResult_eq (g := wrapAdd) h1 h2 h3

/-- Settles O17. -/
theorem mulStoresWrappedProduct : Obligations.MulStoresWrappedProduct :=
  fun _ _ _ _ _ h1 h2 h3 => storeResult_eq (g := wrapMul) h1 h2 h3

/-- Settles O18. -/
theorem ltStoresSignedComparison : Obligations.LtStoresSignedComparison :=
  fun _ _ _ _ _ h1 h2 h3 => storeResult_eq (g := lessThan) h1 h2 h3

/-- Settles O19: words are equal exactly when their signed values are. -/
theorem eqStoresEquality : Obligations.EqStoresEquality := by
  intro s m1 m2 m3 d h1 h2 h3
  simp only [BitVec.toInt_inj]
  exact storeResult_eq (g := equalWords) h1 h2 h3

/-! ### The port instructions -/

/-- Settles O20: `receive` of a non-empty buffer. -/
theorem inReceivesOldestWord : Obligations.InReceivesOldestWord := by
  intro s m1 x2 x3 d x q hd hq
  rw [exec_inp, execIn_of_ready hd, receive_of_cons (by exact hd.lt) (by exact hq)]
  rfl

/-- Settles O21: `receive` of an empty buffer, the port closed. -/
theorem inOnClosedEmptyPortHalts : Obligations.InOnClosedEmptyPortHalts := by
  intro s m1 x2 x3 d hd hq hc
  rw [exec_inp, execIn_of_ready hd, receive_of_closed (by exact hq) (by exact hc)]
  rfl

/-- Settles O22: `receive` of an empty buffer, the port open. -/
theorem inOnOpenEmptyPortHolds : Obligations.InOnOpenEmptyPortHolds := by
  intro s m1 x2 x3 d hd hq hc
  rw [exec_inp, execIn_of_ready hd, receive_of_open (by exact hq) (by exact hc)]
  rfl

/-- Settles O23: `send` on an open port with room. -/
theorem outPushesValue : Obligations.OutPushesValue := by
  intro s m1 x2 x3 hr hc hroom
  rw [exec_out, execOut_of_ready hr, send_of_room (by exact hc) (by exact Depth.hasRoom_eq_true.2 hroom)]
  rfl

/-- Settles O24: `send` on a closed port. -/
theorem outOnClosedPortDrops : Obligations.OutOnClosedPortDrops := by
  intro s m1 x2 x3 hr hc
  rw [exec_out, execOut_of_ready hr, send_of_closed (by exact hc)]
  rfl

/-- Settles O25: `send` on an open port without room. -/
theorem outOnFullPortHolds : Obligations.OutOnFullPortHolds := by
  intro s m1 x2 x3 n hr hc hdepth hfull
  rw [exec_out, execOut_of_ready hr, send_of_full (by exact hc) (by exact Depth.hasRoom_eq_false.2 ⟨n, hdepth, hfull⟩)]
  rfl

/-! ### The jumps -/

/-- R140 to R142: a conditional jump that does not go to a negative target, field by field. -/
theorem condJump_eq {taken : Word → Bool} {m1 m2 : Mode} {s : State} (h1 : SrcReady s 1 m1) (h2 : SrcReady s 2 m2)
    (hb : taken (srcValue s 1 m1) = true → 0 ≤ (srcValue s 2 m2).toInt) :
    condJump taken m1 m2 s = .next { s with
      len := lengthAfter s.len (srcCells s 1 m1 ++ srcCells s 2 m2)
      pc := if taken (srcValue s 1 m1) then srcValue s 2 m2 else s.pc + 3
      st := .running } := by
  rw [condJump_of_ready h1 h2]
  split
  · next ht => rw [if_neg (by have := hb ht; omega)]; rfl
  · rfl

/-- R142, R100: a conditional jump taken to a negative target, field by field. -/
theorem condJump_to_negative {taken : Word → Bool} {m1 m2 : Mode} {s : State} (h1 : SrcReady s 1 m1)
    (h2 : SrcReady s 2 m2) (ht : taken (srcValue s 1 m1) = true) (hb : (srcValue s 2 m2).toInt < 0) :
    condJump taken m1 m2 s = .next { s with
      len := lengthAfter s.len (srcCells s 1 m1 ++ srcCells s 2 m2)
      st := .faulted, fcause := .addressFault, fpc := s.pc, fval := srcValue s 2 m2 } := by
  rw [condJump_of_ready h1 h2, if_pos ht, if_pos hb, takeFault, Raised.info, wrap64_toInt]
  rfl

/-- Settles O26. -/
theorem jtJumpsWhenNonzero : Obligations.JtJumpsWhenNonzero := by
  intro s m1 m2 x3 h1 h2 hb
  rw [exec_jt, condJump_eq h1 h2 (by simpa using hb)]
  simp only [decide_eq_true_eq]

/-- Settles O27. -/
theorem jfJumpsWhenZero : Obligations.JfJumpsWhenZero := by
  intro s m1 m2 x3 h1 h2 hb
  rw [exec_jf, condJump_eq h1 h2 (by simpa using hb)]
  simp only [decide_eq_true_eq]

/-- Settles O28. -/
theorem takenJumpToNegativeTargetFaults : Obligations.TakenJumpToNegativeTargetFaults := by
  intro s m1 m2 x3 h1 h2 hb
  refine ⟨fun ha => ?_, fun ha => ?_⟩
  · rw [exec_jt, condJump_to_negative h1 h2 (by simpa using ha) hb]
  · rw [exec_jf, condJump_to_negative h1 h2 (by simpa using ha) hb]

/-! ### ARB, HALT and the ignored mode digits -/

/-- Settles O29. -/
theorem arbAddsToRelativeBase : Obligations.ArbAddsToRelativeBase := by
  intro s m1 x2 x3 hr
  rw [exec_arb, execArb_of_ready hr]
  rfl

/-- Settles O30. -/
theorem haltEndsTheRun : Obligations.HaltEndsTheRun :=
  fun s x1 x2 x3 => exec_halt x1 x2 x3 s

/-- Settles O31: `exec` passes no ignored mode digit on. -/
theorem ignoredModeDigitsHaveNoEffect : Obligations.IgnoredModeDigitsHaveNoEffect := by
  intro i s
  cases i <;> exact ⟨rfl, rfl, rfl⟩

end Sys2Proof.Machine
end

section
/-! What an instruction, and a step, leaves alone (spec/40_step_fsm.md rule R98, spec/60_exceptions.md rule R177): the frames
instruction by instruction, and the rules that hold of every step. -/

namespace Sys2Proof.Machine

/-! ### A faulting instruction -/

/-- R100, R177: the fault entry changes `ST`, the fault report and `LEN` only. -/
theorem FaultedFrom.frame {s t : State} (h : FaultedFrom s t) :
    t = { s with len := t.len, st := .faulted, fcause := t.fcause, fpc := s.pc, fval := t.fval }
      ∧ t.fcause ≠ .none ∧ s.len ≤ t.len := by
  obtain ⟨f, n, hn, -, rfl⟩ := h
  exact ⟨rfl, f.cause_ne_none, hn⟩

theorem FaultedFrom.st {s t : State} (h : FaultedFrom s t) : t.st = .faulted := by
  obtain ⟨f, n, -, -, rfl⟩ := h
  rfl

theorem Ended.st_ne_faulted {i : Instr} {s t : State} (h : Ended i s t) : t.st ≠ .faulted := by
  cases h with
  | sent m b c hi hr ht => exact ht ▸ send_st_ne_faulted _ _
  | stored | received | inputEnded | inputHeld | jumped | fellThrough | adjusted | halted => simp [*]

/-- Settles O10: of the ways a step can end, only `FaultedFrom` ends in FAULTED. -/
theorem faultsArePrecise : Obligations.FaultsArePrecise := by
  intro s t hs hstep hf
  rcases step_ended hstep with ⟨hn, -⟩ | ⟨-, h⟩ | ⟨-, i, -, -, h⟩
  · simp [hs] at hn
  · exact h.frame
  · exact absurd hf h.st_ne_faulted

/-! ### The frames, instruction by instruction -/

/-- Settles O32: the four instructions are one shared operation, which faults or stores at its destination. -/
theorem storingInstructionsFrame : Obligations.StoringInstructionsFrame := by
  intro i s t m1 m2 m3 hi h
  obtain ⟨g, hg⟩ : ∃ g, exec i s = storeResult g m1 m2 m3 s := by rcases hi with rfl | rfl | rfl | rfl <;> exact ⟨_, rfl⟩
  rw [hg] at h
  rcases storeResult_cases h with ⟨f, n, hn, -, rfl⟩ | ⟨d, -, -, ⟨-, hd, -⟩, rfl⟩
  · simp [hn]
  · have hlen := le_lengthAfter s.len (srcCells s 1 m1 ++ srcCells s 2 m2 ++ [s.pc.toNat + 3])
    simp only [State.complete_st, State.complete_peek, State.complete_len, State.store_len, State.withLen_len,
      State.peek_store]
    refine ⟨rfl, rfl, rfl, rfl, rfl, rfl, rfl, rfl, rfl, rfl, by omega, fun _ => ⟨rfl, rfl, rfl⟩, nofun, ?_⟩
    intro a ha
    rw [if_neg (by rintro rfl; exact ha hd), State.withLen_peek]

/-- Settles O33, by the four ways IN ends. -/
theorem inFrame : Obligations.InFrame := by
  intro s t m1 x2 x3 h
  rcases execIn_cases h with
    ⟨f, n, hn, -, rfl⟩ | ⟨d, ⟨-, hd, -⟩, ⟨x, q, hq, rfl⟩ | ⟨hq, hc, rfl⟩ | ⟨hq, hc, rfl⟩⟩
  · simp [hn]
  · have hcell : ∀ a : Nat, paramAddr s 1 m1 ≠ some (a : Int) → a ≠ d := by
      rintro a ha rfl
      exact ha hd
    simp only [lengthAfter_cons, lengthAfter_nil, State.complete_st, State.complete_inFifo, State.store_inFifo]
    refine ⟨rfl, rfl, rfl, rfl, rfl, rfl, rfl, by simp, fun _ => ⟨rfl, rfl⟩, fun _ => ⟨rfl, rfl, rfl⟩,
      fun _ => ⟨x, hq⟩, fun hr => absurd rfl hr, ?_⟩
    intro a ha
    rw [State.complete_peek, State.peek_store, if_neg (hcell a ha)]
    rfl
  · simp
  · simp

/-- Settles O34: OUT faults, or it is `send`, which emits only when it completes. -/
theorem outFrame : Obligations.OutFrame := by
  intro s t m1 x2 x3 h
  rcases execOut_cases h with ⟨f, n, hn, -, rfl⟩ | ⟨-, rfl⟩
  · simp [hn]
  · have hlen := le_lengthAfter s.len (srcCells s 1 m1)
    refine ⟨by simp, by simp, by simp, by simp, by simp, by simp, by simp, by simpa using hlen,
      fun _ => by simp, fun hr => ?_, by simp⟩
    rcases send_running_or_held (srcValue s 1 m1) (s.withLen (lengthAfter s.len (srcCells s 1 m1))) with
      hrun | ⟨-, -, hheld⟩
    · exact absurd hrun hr
    · simp [hheld]

/-- Settles O35: JT and JF are one shared operation, which faults, jumps or advances. -/
theorem jumpFrame : Obligations.JumpFrame := by
  intro i s t m1 m2 x3 hi h
  obtain ⟨taken, hj⟩ : ∃ taken, exec i s = condJump taken m1 m2 s := by
    rcases hi with rfl | rfl
    · exact ⟨_, exec_jt m1 m2 x3 s⟩
    · exact ⟨_, exec_jf m1 m2 x3 s⟩
  rw [hj] at h
  rcases condJump_cases h with ⟨f, n, hn, -, rfl⟩ | ⟨-, -, ⟨-, -, rfl⟩ | ⟨-, rfl⟩⟩
  · exact ⟨rfl, hn, fun hne => absurd rfl hne, fun _ => rfl⟩
  · exact ⟨rfl, le_lengthAfter _ _, fun _ => ⟨rfl, rfl, rfl⟩, nofun⟩
  · exact ⟨rfl, le_lengthAfter _ _, fun _ => ⟨rfl, rfl, rfl⟩, nofun⟩

/-- Settles O36, by the two ways ARB ends. -/
theorem arbFrame : Obligations.ArbFrame := by
  intro s t m1 x2 x3 h
  rcases execArb_cases h with ⟨f, n, hn, -, rfl⟩ | ⟨-, rfl⟩
  · exact ⟨rfl, hn, fun hne => absurd rfl hne, fun _ => ⟨rfl, rfl⟩⟩
  · exact ⟨rfl, le_lengthAfter _ _, fun _ => ⟨rfl, rfl, rfl⟩, nofun⟩

/-! ### Rules of every step -/

theorem Ended.rb_eq {i : Instr} {s t : State} (h : Ended i s t) (hi : ∀ x y z, i ≠ .arb x y z) : t.rb = s.rb := by
  cases h with
  | adjusted m b c v n harb hn hc ht => exact absurd harb (hi m b c)
  | stored | received | inputEnded | inputHeld | sent | jumped | fellThrough | halted => simp [*]

/-- Settles O37: a stutter, a fault and every ending but ARB's keep `RB`. -/
theorem onlyArbWritesRelativeBase : Obligations.OnlyArbWritesRelativeBase := by
  intro s t hstep hne
  rcases step_ended hstep with ⟨-, rfl⟩ | ⟨-, f, n, -, -, rfl⟩ | ⟨-, i, -, hd, h⟩
  · exact absurd rfl hne
  · exact absurd rfl hne
  · by_contra hno
    exact hne (h.rb_eq fun x y z hi => hno ⟨x, y, z, hi ▸ hd⟩)

theorem Ended.peek_eq {i : Instr} {s t : State} (h : Ended i s t) {a : Nat}
    (hi : ∀ k m, i.destination = some (k, m) → paramAddr s k m ≠ some (a : Int)) : t.peek a = s.peek a := by
  cases h with
  | stored k m d v n hdest hd hn hc hne ht =>
    obtain ⟨-, haddr, -⟩ := hd
    have had : a ≠ d := by rintro rfl; exact hi k m hdest haddr
    simp [ht, State.peek_store, had]
  | received m b c d x q n hinp hd hq hn hc ht =>
    obtain ⟨-, haddr, -⟩ := hd
    have had : a ≠ d := by rintro rfl; exact hi 1 m (by rw [hinp]; rfl) haddr
    rw [ht, State.complete_peek, State.peek_store, if_neg had]
    rfl
  | inputEnded | inputHeld | sent | jumped | fellThrough | adjusted | halted => simp [*]

/-- Settles O38: a stutter and a fault change no cell, and an ended instruction only its destination. -/
theorem stepWritesOnlyItsDestination : Obligations.StepWritesOnlyItsDestination := by
  intro s t a hstep hne
  rcases step_ended hstep with ⟨-, rfl⟩ | ⟨-, f, n, -, -, rfl⟩ | ⟨-, i, -, hd, h⟩
  · exact absurd rfl hne
  · exact absurd rfl hne
  · by_contra hno
    exact hne (h.peek_eq fun k m hdest haddr => hno ⟨i, k, m, hd, hdest, haddr⟩)

/-! ### Terminal states (R178) -/

/-- Settles O6. -/
theorem noStepOutsideRunning : Obligations.NoStepOutsideRunning :=
  fun _ h => step_of_not_steps (ExecState.steps_eq_false.2 h)

/-- Settles O39: a step stutters, and a host operation touches the ports only. -/
theorem terminalStatesAreIrreversible : Obligations.TerminalStatesAreIrreversible := by
  intro s hst
  have hstep : step s = .next s := noStepOutsideRunning s (.inr hst)
  have hidle : s.st ≠ .idle := by rcases hst with h | h <;> simp [h]
  refine ⟨fun a ha => ?_, hstep, rfl⟩
  cases a with
  | core => simp [act, stepState_of_step hstep]
  | host op =>
    obtain ⟨q, c, q', c', h⟩ := hostOp_changes_ports_only (by simpa using ha) hidle
    simp [act, h]

/-! ### What only a reset undoes (R34 (h)) -/

/-- R11, R34 (h): the tape has not shrunk and no port bit has been cleared. -/
structure OnlyGrown (s t : State) : Prop where
  len : s.len ≤ t.len
  inClosed : s.inClosed = true → t.inClosed = true
  outClosed : s.outClosed = true → t.outClosed = true
  outEos : s.outEos = true → t.outEos = true
  outDrop : s.outDrop = true → t.outDrop = true

theorem OnlyGrown.refl (s : State) : OnlyGrown s s := ⟨Nat.le_refl _, id, id, id, id⟩

theorem OnlyGrown.of_withLen {s t : State} {n : Nat} (hn : s.len ≤ n) (h : OnlyGrown (s.withLen n) t) : OnlyGrown s t :=
  { h with len := Nat.le_trans hn h.len }

theorem FaultedFrom.onlyGrown {s t : State} (h : FaultedFrom s t) : OnlyGrown s t := by
  obtain ⟨f, n, hn, -, rfl⟩ := h
  exact ⟨hn, id, id, id, id⟩

theorem Ended.onlyGrown {i : Instr} {s t : State} (h : Ended i s t) : OnlyGrown s t := by
  cases h with
  | stored k m d v n hdest hd hn hc hne ht =>
    exact ht ▸ ⟨Nat.le_trans hn (Nat.le_max_left _ _), id, id, id, id⟩
  | received m b c d x q n hinp hd hq hn hc ht =>
    exact ht ▸ ⟨Nat.le_trans hn (Nat.le_max_left _ _), id, id, id, id⟩
  | inputEnded m b c d hinp hd hq hcl ht => exact ht ▸ ⟨le_lengthAfter _ _, id, id, fun _ => rfl, id⟩
  | inputHeld m b c d hinp hd hq hcl ht => exact ht ▸ ⟨le_lengthAfter _ _, id, id, id, id⟩
  | sent m b c hout hr ht =>
    exact ht ▸ ⟨by simpa using le_lengthAfter _ _, by simp, by simp, by simp, fun h => send_outDrop_of_dropped _ h⟩
  | jumped n b hdest hna hn hc hb ht => exact ht ▸ ⟨hn, id, id, id, id⟩
  | fellThrough n hdest hna hn hc ht => exact ht ▸ ⟨hn, id, id, id, id⟩
  | adjusted m b c v n harb hn hc ht => exact ht ▸ ⟨hn, id, id, id, id⟩
  | halted a b c hhalt ht => exact ht ▸ ⟨Nat.le_refl _, id, id, fun _ => rfl, id⟩

theorem act_onlyGrown {a : Action} (ha : a ≠ .host .reset) (s : State) : OnlyGrown s (act a s) := by
  cases a with
  | core =>
    rcases step_ended (step_eq_stepState s) with ⟨-, h⟩ | ⟨-, h⟩ | ⟨-, i, -, -, h⟩
    · rw [act, h]
      exact OnlyGrown.refl s
    · exact h.onlyGrown
    · exact h.onlyGrown.of_withLen (Nat.le_max_left _ _)
  | host op =>
    refine hostOp_induction (OnlyGrown.refl s) fun _ => ?_
    cases op with
    | reset => exact absurd rfl ha
    | load v => exact ⟨Nat.le_max_left _ _, id, id, id, id⟩
    | closeIn => exact ⟨Nat.le_refl _, fun _ => rfl, id, id, id⟩
    | closeOut => exact ⟨Nat.le_refl _, id, fun _ => rfl, id, id⟩
    | start | pushIn | popOut | readMem => exact ⟨Nat.le_refl _, id, id, id, id⟩

/-- Settles O40. -/
theorem onlyResetShrinksTapeOrClearsPortBits : Obligations.OnlyResetShrinksTapeOrClearsPortBits := by
  intro a s ha
  obtain ⟨hlen, h1, h2, h3, h4⟩ := act_onlyGrown ha s
  exact ⟨hlen, h1, h2, h3, h4⟩

/-! ### How a core comes to wait or to halt -/

/-- R123: only an IN on an empty, open port ends in AWAIT_INPUT. -/
theorem Ended.of_awaitInput {i : Instr} {s t : State} (h : Ended i s t) (hst : t.st = .awaitInput) :
    ∃ m b c d, i = .inp m b c ∧ DstReady s 1 m d ∧ s.inFifo = [] ∧ s.inClosed = false
      ∧ t = (s.withLen (lengthAfter s.len [s.pc.toNat + 1])).hold .awaitInput := by
  cases h with
  | inputHeld m b c d hi hd hq hc ht => exact ⟨m, b, c, d, hi, hd, hq, hc, ht⟩
  | sent m b c hi hr ht =>
    subst ht
    rcases send_running_or_held (srcValue s 1 m) (s.withLen (lengthAfter s.len (srcCells s 1 m))) with h | ⟨-, -, h⟩ <;>
      simp [h] at hst
  | stored | received | inputEnded | jumped | fellThrough | adjusted | halted => simp_all

/-- R126: only an OUT on a full, open port ends in AWAIT_OUTPUT. -/
theorem Ended.of_awaitOutput {i : Instr} {s t : State} (h : Ended i s t) (hst : t.st = .awaitOutput) :
    ∃ m b c, i = .out m b c ∧ SrcReady s 1 m ∧ s.outClosed = false
      ∧ Depth.hasRoom s.cfg.outDepth s.outFifo = false
      ∧ t = (s.withLen (lengthAfter s.len (srcCells s 1 m))).hold .awaitOutput := by
  cases h with
  | sent m b c hi hr ht =>
    subst ht
    rcases send_running_or_held (srcValue s 1 m) (s.withLen (lengthAfter s.len (srcCells s 1 m))) with h | ⟨hc, hroom, h⟩
    · simp [h] at hst
    · exact ⟨m, b, c, hi, hr, hc, hroom, h⟩
  | stored | received | inputEnded | inputHeld | jumped | fellThrough | adjusted | halted => simp_all

/-- R181: only HALT and an IN on an empty, closed port end in HALTED. -/
theorem Ended.of_halted {i : Instr} {s t : State} (h : Ended i s t) (hst : t.st = .halted) :
    (∃ x1 x2 x3, i = .halt x1 x2 x3 ∧ t = s.enterHalted .haltInstruction) ∨
    (∃ m b c n, i = .inp m b c ∧ s.inFifo = [] ∧ s.inClosed = true ∧ t = (s.withLen n).enterHalted .inputClosed) := by
  cases h with
  | halted a b c hi ht => exact .inl ⟨a, b, c, hi, ht⟩
  | inputEnded m b c d hi hd hq hc ht => exact .inr ⟨m, b, c, _, hi, hq, hc, ht⟩
  | sent m b c hi hr ht =>
    subst ht
    rcases send_running_or_held (srcValue s 1 m) (s.withLen (lengthAfter s.len (srcCells s 1 m))) with h | ⟨-, -, h⟩ <;>
      simp [h] at hst
  | stored | received | inputHeld | jumped | fellThrough | adjusted => simp_all

/-- A step that ends waiting has ended its instruction: a stutter and a fault end elsewhere. -/
theorem ended_of_step_steps {s t : State} (h : step s = .next t) (hst : t.st.steps = true) :
    ∃ i, s.pc.toNat < s.cfg.memCap ∧ decode (s.peek s.pc.toNat) = .ok i ∧
      Ended i (s.withLen (max s.len (s.pc.toNat + 1))) t := by
  rcases step_ended h with ⟨hs, rfl⟩ | ⟨-, hf⟩ | ⟨-, h⟩
  · simp [hs] at hst
  · rw [hf.st] at hst
    cases hst
  · exact h

/-- Settles O41: the two inversions `Ended.of_awaitInput` and `Ended.of_awaitOutput`. -/
theorem holdsOnlyOnBlockedPort : Obligations.HoldsOnlyOnBlockedPort := by
  intro s t hstep
  constructor
  · intro hst
    obtain ⟨i, -, hd, he⟩ := ended_of_step_steps hstep (by rw [hst]; rfl)
    obtain ⟨m, b, c, d, rfl, -, hq, hc, rfl⟩ := he.of_awaitInput hst
    exact ⟨⟨m, b, c, hd⟩, hq, hc, rfl⟩
  · intro hst
    obtain ⟨i, -, hd, he⟩ := ended_of_step_steps hstep (by rw [hst]; rfl)
    obtain ⟨m, b, c, rfl, -, hc, hroom, rfl⟩ := he.of_awaitOutput hst
    exact ⟨⟨m, b, c, hd⟩, Depth.hasRoom_eq_false.1 hroom, hc, rfl⟩

/-- Settles O42: the inversion `Ended.of_halted`. -/
theorem haltsOnlyByHaltOrClosedInput : Obligations.HaltsOnlyByHaltOrClosedInput := by
  intro s t hs hstep hst
  rcases step_ended hstep with ⟨hn, -⟩ | ⟨-, hf⟩ | ⟨-, i, -, hd, he⟩
  · simp [hs] at hn
  · rw [hf.st] at hst
    cases hst
  · rcases he.of_halted hst with ⟨x1, x2, x3, rfl, rfl⟩ | ⟨m, b, c, n, rfl, hq, hc, rfl⟩
    · exact ⟨rfl, rfl, .inl ⟨⟨x1, x2, x3, hd⟩, rfl⟩⟩
    · exact ⟨rfl, rfl, .inr ⟨⟨m, b, c, hd⟩, hq, hc, rfl⟩⟩

end Sys2Proof.Machine
end

section
/-! The invariant of spec/10_state.md rule R34 over reset, steps and host operations. While a core steps, none of the clauses
about an ended or a held core binds: `Live` is the rest of the invariant. What an instruction does to the tape, the buffers
and `RB` keeps `Live`, and each way of ending a step turns it back into `Inv`. -/

namespace Sys2Proof.Machine

/-! ### Reset -/

theorem inv_resetWith {c : Config} (hc : c.wf = true) : Inv (State.resetWith c) where
  cfg_wf := hc
  mem_wf := Memory.wf_nil
  len_le := Nat.zero_le _
  beyond _ _ := rfl
  pc_le := Nat.zero_le _
  in_fits := by cases hd : c.inDepth <;> simp [Depth.holds, hd]
  out_fits := by cases hd : c.outDepth <;> simp [Depth.holds, hd]
  hcause_iff := by simp
  fcause_iff := by simp
  report_zero _ := ⟨rfl, rfl⟩
  eos_iff := by simp
  await_in h := by cases h
  await_out h := by cases h

/-- Settles O43: the reset table meets every clause; the reference setting is legal. -/
theorem invariantHoldsAtReset : Obligations.InvariantHoldsAtReset :=
  ⟨inv_resetWith (by decide), fun _ hc => inv_resetWith hc⟩

/-! ### `Live`: the invariant with the executor running -/

/-- The invariant of `s`, the executor put in RUNNING: what R34 says of a core in the middle of a step. -/
def Live (s : State) : Prop := Inv (s.hold .running)

theorem Inv.live {s : State} (h : Inv s) (hs : s.st.steps = true) : Live s := by
  obtain ⟨hh, hf⟩ := ExecState.steps_ne hs
  exact { h with
    hcause_iff := by simpa [hh] using h.hcause_iff
    fcause_iff := by simpa [hf] using h.fcause_iff
    report_zero := fun _ => h.report_zero hf
    eos_iff := by simpa [hh] using h.eos_iff
    await_in := nofun
    await_out := nofun }

theorem Live.hcause {s : State} (h : Live s) : s.hcause = .none := by simpa using h.hcause_iff
theorem Live.fcause {s : State} (h : Live s) : s.fcause = .none := by simpa using h.fcause_iff
theorem Live.outEos {s : State} (h : Live s) : s.outEos = false := by simpa using h.eos_iff
theorem Live.report {s : State} (h : Live s) : s.fpc = 0 ∧ s.fval = 0 := h.report_zero (by simp)
theorem Live.len_le {s : State} (h : Live s) : s.len ≤ s.cfg.memCap := Inv.len_le (s := s.hold .running) h
theorem Live.memCap_le {s : State} (h : Live s) : s.cfg.memCap ≤ 2 ^ 63 := by
  have hw : s.cfg.wf = true := h.cfg_wf
  simp only [Config.wf, Bool.and_eq_true, decide_eq_true_eq] at hw
  omega

/-! ### What the parts of an instruction keep -/

theorem Live.withLen {s : State} {n : Nat} (h : Live s) (hn : s.len ≤ n) (hc : n ≤ max s.len s.cfg.memCap) :
    Live (s.withLen n) :=
  { h with
    len_le := by have := h.len_le; simp only [State.hold_len, State.withLen_len, State.hold_cfg, State.withLen_cfg]; omega
    beyond := fun a ha => h.beyond a (Nat.le_trans hn ha) }

theorem Live.store {s : State} {d : Nat} {v : Word} (h : Live s) (hd : d < s.cfg.memCap) : Live (s.store d v) :=
  { h with
    mem_wf := State.store_wf h.mem_wf d v
    len_le := by have := h.len_le; simp only [State.hold_len, State.store_len, State.hold_cfg, State.store_cfg]; omega
    beyond := fun a ha => by
      replace ha : max s.len (d + 1) ≤ a := ha
      have hz : s.peek a = 0 := h.beyond a (Nat.le_trans (Nat.le_max_left _ _) ha)
      exact (State.peek_store s d v a).trans (by rw [if_neg (by omega), hz])
    await_in := nofun
    await_out := nofun }

theorem Live.adjustBase {s : State} (h : Live s) (a : Word) : Live (s.adjustBase a) := { h with }

theorem Depth.holds_tail {d : Depth} {x : Word} {q : Fifo} (h : Depth.holds d (x :: q) = true) :
    Depth.holds d q = true := by
  cases d with
  | inf => rfl
  | finite n => simp [Depth.holds] at h ⊢; omega

theorem Depth.holds_append {d : Depth} {v : Word} {q : Fifo} (h : Depth.hasRoom d q = true) :
    Depth.holds d (q ++ [v]) = true := by
  cases d with
  | inf => rfl
  | finite n => simp [Depth.holds, Depth.hasRoom] at h ⊢; omega

theorem Live.pop {s : State} {x : Word} {q : Fifo} (h : Live s) (hq : s.inFifo = x :: q) :
    Live { s with inFifo := q } :=
  { h with in_fits := Depth.holds_tail (hq ▸ h.in_fits) }

/-! ### The ends of a step -/

theorem Live.complete {s : State} {n : Nat} (h : Live s) (hpc : s.pc.toNat < s.cfg.memCap) (hn : n ≤ 4) :
    Inv (s.complete n) :=
  { h with
    pc_le := by
      have := h.memCap_le
      simp only [State.complete_pc, BitVec.toNat_add, BitVec.toNat_ofNat]
      omega
    await_in := nofun
    await_out := nofun }

theorem Live.jumpTo {s : State} {b : Word} (h : Live s) (hb : 0 ≤ b.toInt) : Inv (s.jumpTo b) :=
  { h with
    pc_le := by
      have := BitVec.toInt_eq_toNat_cond b
      simp only [State.jumpTo_pc]
      split at this <;> omega
    await_in := nofun
    await_out := nofun }

theorem Live.enterHalted {s : State} {c : HaltCause} (h : Live s) (hc : c ≠ .none) : Inv (s.enterHalted c) :=
  { h with
    hcause_iff := by simpa using hc
    fcause_iff := by simpa using h.fcause
    report_zero := fun _ => h.report
    eos_iff := by simp
    await_in := nofun
    await_out := nofun }

/-- R92: a hold needs what R34 (f) and (g) ask of the sub-state it enters. -/
theorem Live.hold {s : State} {x : ExecState} (h : Live s) (hx : x.steps = true)
    (hin : x = .awaitInput → ∃ m1 x2 x3, decode (s.peek s.pc.toNat) = .ok (.inp m1 x2 x3))
    (hout : x = .awaitOutput →
      s.cfg.outDepth ≠ .inf ∧ ∃ m1 x2 x3, decode (s.peek s.pc.toNat) = .ok (.out m1 x2 x3)) : Inv (s.hold x) := by
  obtain ⟨hh, hf⟩ := ExecState.steps_ne hx
  exact { h with
    hcause_iff := by simpa [hh] using h.hcause
    fcause_iff := by simpa [hf] using h.fcause
    report_zero := fun _ => h.report
    eos_iff := by simpa [hh] using h.outEos
    await_in := hin
    await_out := hout }

theorem Live.takeFault {s : State} (h : Live s) (f : Raised) : Inv (takeFault f s) :=
  { h with
    hcause_iff := by simpa using h.hcause
    fcause_iff := by simpa using f.cause_ne_none
    report_zero := fun hne => absurd rfl hne
    eos_iff := by simpa using h.outEos
    await_in := nofun
    await_out := nofun }

theorem Live.send {s : State} {m x2 x3 : Mode} {a : Word} (h : Live s) (hpc : s.pc.toNat < s.cfg.memCap)
    (hd : decode (s.peek s.pc.toNat) = .ok (.out m x2 x3)) : Inv (send a s) := by
  rcases send_cases a s with ⟨-, hs⟩ | ⟨-, hr, hs⟩ | ⟨-, hr, hs⟩ <;> rw [hs]
  · have hl : Live { s with outLog := s.outLog ++ [a], outDrop := true } := { h with }
    exact hl.complete hpc (by omega)
  · have hl : Live { s with outLog := s.outLog ++ [a], outFifo := s.outFifo ++ [a] } :=
      { h with out_fits := Depth.holds_append hr }
    exact hl.complete hpc (by omega)
  · exact h.hold rfl nofun fun _ => ⟨by rintro hinf; simp [Depth.hasRoom, hinf] at hr, m, x2, x3, hd⟩

theorem FaultedFrom.inv {s t : State} (hf : FaultedFrom s t) (h : Live s) : Inv t := by
  obtain ⟨f, n, hn, hc, rfl⟩ := hf
  exact (h.withLen hn hc).takeFault f

theorem SrcReady.live {s : State} {i : Nat} {m : Mode} (hr : SrcReady s i m) (h : Live s) :
    Live (s.withLen (lengthAfter s.len (srcCells s i m))) :=
  h.withLen (le_lengthAfter _ _) hr.lengthAfter_le

theorem DstReady.live {s : State} {i d : Nat} {m : Mode} (hr : DstReady s i m d) (h : Live s) :
    Live (s.withLen (lengthAfter s.len [s.pc.toNat + i])) :=
  h.withLen (le_lengthAfter _ _) (lengthAfter_le (Nat.le_max_left _ _) (by simp [hr.1]))

/-- An instruction fetched at `PC` and run from a live state ends in a state that meets the invariant. -/
theorem Ended.inv {i : Instr} {s t : State} (he : Ended i s t) (h : Live s) (hpc : s.pc.toNat < s.cfg.memCap)
    (hd : decode (s.peek s.pc.toNat) = .ok i) : Inv t := by
  cases he with
  | stored k m d v n hi hr hn hc hne ht =>
    subst ht
    exact ((h.withLen hn hc).store hr.lt).complete hpc (by omega)
  | received m b c d x q n hi hr hq hn hc ht =>
    subst ht
    exact (((h.withLen hn hc).pop hq).store hr.lt).complete hpc (by omega)
  | inputEnded m b c d hi hr hq hcl ht =>
    subst ht
    exact (hr.live h).enterHalted (by simp)
  | inputHeld m b c d hi hr hq hcl ht =>
    subst ht hi
    exact (hr.live h).hold rfl (fun _ => ⟨m, b, c, hd⟩) nofun
  | sent m b c hi hr ht =>
    subst ht hi
    exact (hr.live h).send hpc hd
  | jumped n b hi hna hn hc hb ht =>
    subst ht
    exact (h.withLen hn hc).jumpTo hb
  | fellThrough n hi hna hn hc ht =>
    subst ht
    exact (h.withLen hn hc).complete hpc (by omega)
  | adjusted m b c v n hi hn hc ht =>
    subst ht
    exact ((h.withLen hn hc).adjustBase v).complete hpc (by omega)
  | halted a b c hi ht =>
    subst ht
    exact h.enterHalted (by simp)

/-- Settles O44: a step stutters, faults or ends its instruction, and each keeps the invariant. -/
theorem stepKeepsInvariant : Obligations.StepKeepsInvariant := by
  intro s t h hstep
  rcases step_ended hstep with ⟨-, rfl⟩ | ⟨hs, hf⟩ | ⟨hs, i, hpc, hd, he⟩
  · exact h
  · exact hf.inv (h.live hs)
  · exact he.inv ((h.live hs).withLen (Nat.le_max_left _ _) (by omega)) hpc hd

/-! ### Host operations -/

/-- R26: the load of a word in IDLE: the tape and `LEN` alone change, below `MEM_CAP`. -/
theorem Inv.load {s : State} (h : Inv s) (hst : s.st = .idle) (hlen : s.len < s.cfg.memCap) (v : Word) :
    Inv (s.store s.len v) := by
  have hne : ∀ x, x ≠ .idle → s.st ≠ x := fun x hx => hst ▸ hx.symm
  exact { h with
    mem_wf := State.store_wf h.mem_wf _ v
    len_le := by simp only [State.store_len, State.store_cfg]; omega
    beyond := fun a ha => by
      replace ha : max s.len (s.len + 1) ≤ a := ha
      exact (State.peek_store s s.len v a).trans (by rw [if_neg (by omega), h.beyond a (by omega)])
    await_in := fun hx => absurd hx (hne _ nofun)
    await_out := fun hx => absurd hx (hne _ nofun) }

theorem Inv.start {s : State} (h : Inv s) (hst : s.st = .idle) : Inv { s with st := .running } :=
  { h with
    hcause_iff := by simpa [hst] using h.hcause_iff
    fcause_iff := by simpa [hst] using h.fcause_iff
    report_zero := fun _ => h.report_zero (by simp [hst])
    eos_iff := by simpa [hst] using h.eos_iff
    await_in := nofun
    await_out := nofun }

theorem Depth.holds_of_tail {d : Depth} {q : Fifo} (h : Depth.holds d q = true) : Depth.holds d q.tail = true := by
  cases q with
  | nil => exact h
  | cons x q => exact Depth.holds_tail h

/-- Settles O45: by the operation; each touches few clauses of the invariant. -/
theorem hostOperationsKeepInvariant : Obligations.HostOperationsKeepInvariant := by
  intro op s h
  refine hostOp_induction h fun hen => ?_
  cases op with
  | reset => exact inv_resetWith h.cfg_wf
  | load v =>
    simp only [HostOp.enabled, Bool.and_eq_true, decide_eq_true_eq] at hen
    exact h.load hen.1 hen.2 v
  | start => exact h.start (by simpa [HostOp.enabled] using hen)
  | pushIn v =>
    simp only [HostOp.enabled, Bool.and_eq_true] at hen
    exact { h with in_fits := Depth.holds_append hen.2 }
  | closeIn => exact { h with }
  | popOut => exact { h with out_fits := Depth.holds_of_tail h.out_fits }
  | closeOut => exact { h with }
  | readMem a => exact h

/-- Settles O56: the end-of-stream marker is up exactly in HALTED. -/
theorem finishedOnlyWhenHaltedAndDrained : Obligations.FinishedOnlyWhenHaltedAndDrained := by
  intro s h
  rw [State.finished, Bool.and_eq_true, h.eos_iff, List.isEmpty_iff]

end Sys2Proof.Machine
end

section
/-! Holds (spec/40_step_fsm.md rule R92): when a held instruction can be attempted again without a fault and without growth,
that every action keeps it so, that such an attempt changes nothing, and that a deadlocked system therefore never moves
again (spec/60_exceptions.md rule R195). -/

namespace Sys2Proof.Machine

/-! ### Settled holds, over the state alone -/

theorem State.eq_grow_iff {s : State} {a : Nat} : s = s.grow a ↔ a < s.len := by
  refine ⟨fun h => ?_, fun h => (State.grow_eq_self h).symm⟩
  have hlen : s.len = max s.len (a + 1) := congrArg State.len h
  omega

theorem State.eq_withLen_iff {s : State} {n : Nat} : s = s.withLen n ↔ n = s.len :=
  ⟨fun h => (congrArg State.len h).symm, fun h => h ▸ rfl⟩

theorem fetchDecode_eq_ok_self {s : State} {i : Instr} :
    fetchDecode s = .ok i s ↔
      s.pc.toNat < s.cfg.memCap ∧ decode (s.peek s.pc.toNat) = .ok i ∧ s.pc.toNat < s.len := by
  rw [fetchDecode_eq_ok, State.eq_grow_iff]

theorem dstParam_eq_ok_self {i d : Nat} {m : Mode} {s : State} :
    dstParam i m s = .ok d s ↔ DstReady s i m d ∧ lengthAfter s.len [s.pc.toNat + i] = s.len := by
  rw [dstParam_eq_ok, State.eq_withLen_iff]

theorem srcParam_eq_ok_self {i : Nat} {m : Mode} {s : State} {v : Word} :
    srcParam i m s = .ok v s ↔ SrcReady s i m ∧ v = srcValue s i m ∧ lengthAfter s.len (srcCells s i m) = s.len := by
  rw [srcParam_eq_ok, State.eq_withLen_iff]

theorem settled_of_no_hold {s : State} (hin : s.st ≠ .awaitInput) (hout : s.st ≠ .awaitOutput) : Settled s :=
  ⟨fun h => absurd h hin, fun h => absurd h hout⟩

/-- What is settled does not depend on the ports. -/
theorem settled_ports {s : State} (q : Fifo) (c : Bool) (q' : Fifo) (c' : Bool) (h : Settled s) :
    Settled { s with inFifo := q, inClosed := c, outFifo := q', outClosed := c' } := by
  obtain ⟨hin, hout⟩ := h
  constructor
  · intro hst
    obtain ⟨m1, x2, x3, d, hf, hd⟩ := hin hst
    rw [fetchDecode_eq_ok_self] at hf
    rw [dstParam_eq_ok_self] at hd
    exact ⟨m1, x2, x3, d, fetchDecode_eq_ok_self.2 hf, dstParam_eq_ok_self.2 hd⟩
  · intro hst
    obtain ⟨m1, x2, x3, a, hf, ha⟩ := hout hst
    rw [fetchDecode_eq_ok_self] at hf
    rw [srcParam_eq_ok_self] at ha
    exact ⟨m1, x2, x3, a, fetchDecode_eq_ok_self.2 hf, srcParam_eq_ok_self.2 ha⟩

/-! ### Every action keeps holds settled -/

/-- R92: a step that ends in a hold has grown the tape over every cell its instruction reads. -/
theorem step_settled {s t : State} (h : step s = .next t) (hs : Settled s) : Settled t := by
  rcases step_ended h with ⟨-, rfl⟩ | ⟨-, hf⟩ | ⟨-, i, hpc, hd, he⟩
  · exact hs
  · exact settled_of_no_hold (by simp [hf.st]) (by simp [hf.st])
  · constructor
    · intro hst
      obtain ⟨m, b, c, d, rfl, hdst, -, -, rfl⟩ := he.of_awaitInput hst
      have hlen : s.pc.toNat < lengthAfter (max s.len (s.pc.toNat + 1)) [s.pc.toNat + 1] :=
        Nat.lt_of_lt_of_le (by omega) (le_lengthAfter _ _)
      exact ⟨m, b, c, d, fetchDecode_eq_ok_self.2 ⟨hpc, hd, hlen⟩,
        dstParam_eq_ok_self.2 ⟨hdst, lengthAfter_lengthAfter _ _⟩⟩
    · intro hst
      obtain ⟨m, b, c, rfl, hsrc, -, -, rfl⟩ := he.of_awaitOutput hst
      have hlen : s.pc.toNat < lengthAfter (max s.len (s.pc.toNat + 1)) (srcCells s 1 m) :=
        Nat.lt_of_lt_of_le (by omega) (le_lengthAfter _ _)
      exact ⟨m, b, c, _, fetchDecode_eq_ok_self.2 ⟨hpc, hd, hlen⟩,
        srcParam_eq_ok_self.2 ⟨hsrc, rfl, lengthAfter_lengthAfter _ _⟩⟩

/-- The controller's operations end outside the holds; the others leave everything but the ports alone. -/
theorem hostOp_settled {s : State} (op : HostOp) (hs : Settled s) : Settled (hostOp op s).1 := by
  by_cases hidle : s.st = .idle
  · refine hostOp_induction hs fun _ => ?_
    cases op with
    | start => exact settled_of_no_hold (by simp [HostOp.effect]) (by simp [HostOp.effect])
    | reset | load | pushIn | closeIn | popOut | closeOut | readMem =>
      exact settled_of_no_hold (by simp [HostOp.effect, hidle]) (by simp [HostOp.effect, hidle])
  · by_cases hop : op = .reset
    · subst hop
      exact settled_of_no_hold nofun nofun
    · obtain ⟨q, c, q', c', h⟩ := hostOp_changes_ports_only hop hidle
      rw [h]
      exact settled_ports q c q' c' hs

/-- Settles O46. -/
theorem actionsKeepHoldsSettled : Obligations.ActionsKeepHoldsSettled := by
  intro a s hs
  cases a with
  | core => exact step_settled (step_eq_stepState s) hs
  | host op => exact hostOp_settled op hs

/-! ### A settled hold attempted again -/

theorem State.hold_eq_self {s : State} {x : ExecState} (h : s.st = x) : s.hold x = s := by
  subst h
  rfl

theorem State.holding_iff {s : State} :
    s.holding = true ↔ (s.st = .awaitInput ∧ s.inFifo = [] ∧ s.inClosed = false) ∨
      (s.st = .awaitOutput ∧ s.outClosed = false ∧ Depth.hasRoom s.cfg.outDepth s.outFifo = false) := by
  unfold State.holding
  cases s.st <;> simp

/-- Settles O47: the attempt resolves without growth, finds the port still blocked and holds again. -/
theorem holdRepeatsUnchanged : Obligations.HoldRepeatsUnchanged := by
  rintro s ⟨hin, hout⟩ hold
  rcases State.holding_iff.1 hold with ⟨hst, hq, hc⟩ | ⟨hst, hc, hroom⟩
  · obtain ⟨m1, x2, x3, d, hf, hd⟩ := hin hst
    rw [step_of_fetchDecode_ok (by rw [hst]; rfl) hf, exec_inp, execIn, hd, Phase.andThen_ok, receive_of_open hq hc,
      finish_ok, State.hold_eq_self hst]
  · obtain ⟨m1, x2, x3, a, hf, ha⟩ := hout hst
    rw [step_of_fetchDecode_ok (by rw [hst]; rfl) hf, exec_out, execOut, ha, Phase.andThen_ok, send_of_full hc hroom,
      finish_ok, State.hold_eq_self hst]

/-! ### Deadlock (R195) -/

theorem System.updateCore_eq_self {y : System} {i : Nat} {f : State → State} (h : ∀ s ∈ y.cores, f s = s) :
    y.updateCore i f = y := by
  have hcores : y.cores.modify i f = y.cores := by
    refine List.ext_getElem? fun j => ?_
    rw [List.getElem?_modify]
    cases hj : y.cores[j]? with
    | none => rfl
    | some s => simp [h s (List.mem_of_getElem? hj)]
  rw [System.updateCore, hcores]

/-- R195: what `System.deadlocked` says of cores and links. -/
theorem System.deadlocked_spec {y : System} (h : y.deadlocked = true) :
    (∀ s ∈ y.cores, s.st.terminal = true ∨ s.holding = true) ∧
    (∀ l ∈ y.links, y.transferWord l = none ∧ y.closeEnabled l = false) := by
  simp only [System.deadlocked, Bool.and_eq_true, List.all_eq_true, Bool.or_eq_true, Option.isNone_iff_eq_none,
    Bool.not_eq_eq_eq_not, Bool.not_true] at h
  obtain ⟨⟨hcores, -⟩, hlinks⟩ := h
  exact ⟨hcores, hlinks⟩

/-- A core that has ended, or is in a settled hold still in force, steps to the same state. -/
theorem stepState_eq_self {s : State} (hs : Settled s) (h : s.st.terminal = true ∨ s.holding = true) :
    stepState s = s := by
  refine stepState_of_step ?_
  rcases h with h | h
  · exact step_of_not_steps (ExecState.steps_of_terminal h)
  · exact holdRepeatsUnchanged s hs h

/-- R195: in a deadlock every move of a core or a link is a stutter. -/
theorem System.move_of_deadlocked {y : System} (hset : ∀ s ∈ y.cores, Settled s) (hdead : y.deadlocked = true)
    {m : Move} (hm : ∀ i op, m ≠ .host i op) : y.move m = y := by
  obtain ⟨hcores, hlinks⟩ := System.deadlocked_spec hdead
  cases m with
  | coreStep i => exact System.updateCore_eq_self fun s hs => stepState_eq_self (hset s hs) (hcores s hs)
  | host i op => exact absurd rfl (hm i op)
  | transfer k =>
    simp only [System.move]
    split
    · next l hl => rw [(hlinks l (List.mem_of_getElem? hl)).1]
    · rfl
  | close k =>
    simp only [System.move]
    split
    · next l hl => simp [(hlinks l (List.mem_of_getElem? hl)).2]
    · rfl

/-- Settles O60, by induction on the schedule: no move leaves the deadlocked system. -/
theorem deadlockIsPermanent : Obligations.DeadlockIsPermanent := by
  intro y ms hset hdead hms
  induction ms with
  | nil => rfl
  | cons m ms ih =>
    have hm : y.move m = y := System.move_of_deadlocked hset hdead (hms m (by simp))
    calc y.run (m :: ms) = (y.move m).run ms := rfl
      _ = y.run ms := by rw [hm]
      _ = y := ih fun m' hm' => hms m' (List.mem_cons_of_mem _ hm')

end Sys2Proof.Machine
end

section
/-! The history (spec/42_io_ports.md rule R128): an action that has dropped no word appends to it exactly the words it puts
into the output buffer, and so does every run. -/

namespace Sys2Proof.Machine

/-- R121, R128: unless it dropped its word, an instruction appends to the history what it appends to the output buffer. -/
theorem Ended.outLog_eq {i : Instr} {s t : State} (h : Ended i s t) (hdrop : t.outDrop = false) :
    ∃ ws, t.outFifo = s.outFifo ++ ws ∧ t.outLog = s.outLog ++ ws := by
  cases h with
  | sent m b c hi hr ht =>
    rcases send_cases (srcValue s 1 m) (s.withLen (lengthAfter s.len (srcCells s 1 m))) with
      ⟨-, h⟩ | ⟨-, -, h⟩ | ⟨-, -, h⟩ <;> rw [ht, h] at hdrop ⊢
    · cases hdrop
    · exact ⟨_, rfl, rfl⟩
    · exact ⟨[], by simp⟩
  | stored | received | inputEnded | inputHeld | jumped | fellThrough | adjusted | halted => exact ⟨[], by simp [*]⟩

theorem stepState_outLog_eq {s : State} (hdrop : (stepState s).outDrop = false) :
    ∃ ws, (stepState s).outFifo = s.outFifo ++ ws ∧ (stepState s).outLog = s.outLog ++ ws := by
  rcases step_ended (step_eq_stepState s) with ⟨-, h⟩ | ⟨-, f, n, -, -, h⟩ | ⟨-, i, -, -, h⟩
  · exact ⟨[], by simp [h]⟩
  · exact ⟨[], by simp [h]⟩
  · exact h.outLog_eq hdrop

/-- R23: no host operation but a reset touches the history. -/
theorem hostOp_outLog {op : HostOp} (hop : op ≠ .reset) (s : State) : (hostOp op s).1.outLog = s.outLog := by
  refine hostOp_induction (p := fun t => t.outLog = s.outLog) rfl fun _ => ?_
  cases op with
  | reset => exact absurd rfl hop
  | load | start | pushIn | closeIn | popOut | closeOut | readMem => rfl

/-- R128, one action: the history grows by the words sent. -/
theorem act_outLog {a : Action} (ha : a ≠ .host .reset) {s : State} (hdrop : (act a s).outDrop = false) :
    (act a s).outLog = s.outLog ++ sentWords [a] s := by
  cases a with
  | core =>
    obtain ⟨ws, hfifo, hlog⟩ := stepState_outLog_eq hdrop
    simp [sentWords, act, hfifo, hlog]
  | host op => simpa [sentWords, act] using hostOp_outLog (by simpa using ha) s

/-- R34 (h): a run without a reset never clears `OUT_DROP`. -/
theorem outDrop_eq_false_of_run {as : List Action} (hr : noReset as = true) {s : State}
    (h : (runActions as s).outDrop = false) : s.outDrop = false := by
  induction as generalizing s with
  | nil => exact h
  | cons a as ih =>
    obtain ⟨ha, has⟩ := noReset_cons.1 hr
    have hact : (act a s).outDrop = false := ih has h
    by_contra hne
    rw [(act_onlyGrown ha s).outDrop (by simpa using hne)] at hact
    cases hact

/-- Settles O49, by induction on the run: nothing was dropped at its end, so at no action before. -/
theorem historyIsWhatWasSent : Obligations.HistoryIsWhatWasSent := by
  intro as s hr hdrop
  induction as generalizing s with
  | nil => simp [runActions, sentWords]
  | cons a as ih =>
    obtain ⟨ha, has⟩ := noReset_cons.1 hr
    have hact : (act a s).outDrop = false := outDrop_eq_false_of_run has hdrop
    calc (runActions (a :: as) s).outLog
        = (act a s).outLog ++ sentWords as (act a s) := ih (act a s) has hdrop
      _ = s.outLog ++ sentWords (a :: as) s := by
          rw [act_outLog ha hact, List.append_assoc, ← addsUp_sentWords.cons]

end Sys2Proof.Machine
end

section
/-! The order of faults (spec/60_exceptions.md rule R175): the phases of a step against the trace of Safety.lean, parameter by
parameter. -/

namespace Sys2Proof.Machine

/-- R175: `p`, begun in `s`, follows the trace `tr` of reads and fault: it raises that fault with the tape grown over those
reads, or the trace has none and it ends outside FAULTED. -/
def Phase.Follows (p : Phase Unit) (s : State) (tr : List Nat × Option Raised) : Prop :=
  match tr.2 with
  | some f => p = .raised f (s.withLen (lengthAfter s.len tr.1))
  | none => ∃ t, p = .ok () t ∧ t.st ≠ .faulted

theorem Phase.follows_some {p : Phase Unit} {s : State} {cells : List Nat} {f : Raised} :
    p.Follows s (cells, some f) ↔ p = .raised f (s.withLen (lengthAfter s.len cells)) := Iff.rfl

theorem Phase.follows_none {p : Phase Unit} {s : State} {cells : List Nat} :
    p.Follows s (cells, none) ↔ ∃ t, p = .ok () t ∧ t.st ≠ .faulted := Iff.rfl

/-- Reads made before the phase come first in the trace. -/
theorem Phase.Follows.of_withLen {p : Phase Unit} {s : State} {before cells : List Nat} {o : Option Raised}
    (h : p.Follows (s.withLen (lengthAfter s.len before)) (cells, o)) : p.Follows s (before ++ cells, o) := by
  cases o with
  | none => exact h
  | some f => simpa [Phase.follows_some, lengthAfter_append] using h

theorem Phase.andThen_assoc {α β γ : Type} (p : Phase α) (k : α → State → Phase β) (l : β → State → Phase γ) :
    (p.andThen k).andThen l = p.andThen fun v s => (k v s).andThen l := by
  cases p <;> rfl

/-! ### One parameter -/

@[simp] theorem resolveTrace_nil (s : State) (i : Nat) : resolveTrace s i [] = ([], none) := rfl

@[simp] theorem resolveTrace_withLen (s : State) (n i : Nat) (ps : List (ParamKind × Mode)) :
    resolveTrace (s.withLen n) i ps = resolveTrace s i ps := by
  induction ps generalizing i with
  | nil => rfl
  | cons p ps ih =>
    obtain ⟨k, m⟩ := p
    simp only [resolveTrace, ih, paramFault_withLen, srcCells_withLen]
    rfl

@[simp] theorem jumpFault_withLen (s : State) (n : Nat) (i : Instr) : jumpFault (s.withLen n) i = jumpFault s i := by
  cases i <;> rfl

/-- A trace, and then a fault found after it (R175 (6)). -/
def thenFault (tr : List Nat × Option Raised) (o : Option Raised) : List Nat × Option Raised := (tr.1, tr.2.or o)

@[simp] theorem thenFault_nil (o : Option Raised) : thenFault ([], none) o = ([], o) := rfl

theorem thenFault_resolveTrace_of_fault {s : State} {i : Nat} {k : ParamKind} {m : Mode} {f : Raised}
    (h : paramFault s i m = some f) (ps : List (ParamKind × Mode)) (o : Option Raised) :
    thenFault (resolveTrace s i ((k, m) :: ps)) o =
      (if s.cfg.memCap ≤ s.pc.toNat + i then [] else [s.pc.toNat + i], some f) := by
  simp [thenFault, resolveTrace, h]

theorem thenFault_resolveTrace_src {s : State} {i : Nat} {m : Mode} (h : paramFault s i m = none)
    (ps : List (ParamKind × Mode)) (o : Option Raised) :
    thenFault (resolveTrace s i ((.src, m) :: ps)) o =
      (srcCells s i m ++ (thenFault (resolveTrace s (i + 1) ps) o).1, (thenFault (resolveTrace s (i + 1) ps) o).2) := by
  simp [thenFault, resolveTrace, h]

theorem thenFault_resolveTrace_dst {s : State} {i : Nat} {m : Mode} (h : paramFault s i m = none)
    (ps : List (ParamKind × Mode)) (o : Option Raised) :
    thenFault (resolveTrace s i ((.dst, m) :: ps)) o =
      ([s.pc.toNat + i] ++ (thenFault (resolveTrace s (i + 1) ps) o).1,
        (thenFault (resolveTrace s (i + 1) ps) o).2) := by
  simp [thenFault, resolveTrace, h]

/-- R97, R175: a source parameter first, then what follows it. -/
theorem follows_srcParam {i : Nat} {m : Mode} {s : State} {k : Word → State → Phase Unit}
    {ps : List (ParamKind × Mode)} {o : Option Raised}
    (hk : SrcReady s i m → (k (srcValue s i m) (s.withLen (lengthAfter s.len (srcCells s i m)))).Follows
      (s.withLen (lengthAfter s.len (srcCells s i m))) (thenFault (resolveTrace s (i + 1) ps) o)) :
    ((srcParam i m s).andThen k).Follows s (thenFault (resolveTrace s i ((.src, m) :: ps)) o) := by
  cases hp : paramFault s i m with
  | some f =>
    rw [thenFault_resolveTrace_of_fault hp, srcParam_eq_raised.2 ⟨hp, rfl⟩, Phase.andThen_raised]
    exact Phase.follows_some.2 rfl
  | none =>
    have hr := paramFault_eq_none.1 hp
    rw [thenFault_resolveTrace_src hp, srcParam_eq_ok.2 ⟨hr, rfl, rfl⟩, Phase.andThen_ok]
    exact (hk hr).of_withLen

/-- A parameter with an address, once fetched and checked, is a destination that resolves. -/
theorem SrcReady.exists_dstReady {s : State} {i : Nat} {m : Mode} (h : SrcReady s i m) (hm : m ≠ .immediate) :
    ∃ d, DstReady s i m d := by
  obtain ⟨hfetch, haddr⟩ := h
  obtain ⟨a, ha⟩ : ∃ a, paramAddr s i m = some a := by
    cases m with
    | immediate => exact absurd rfl hm
    | position | relative => exact ⟨_, rfl⟩
  obtain ⟨h0, hc⟩ := haddr a ha
  obtain ⟨d, rfl⟩ := Int.eq_ofNat_of_zero_le h0
  exact ⟨d, hfetch, ha, by omega⟩

/-- R97, R175: a destination parameter, the last one, then what follows it. -/
theorem follows_dstParam {i : Nat} {m : Mode} {s : State} {k : Nat → State → Phase Unit} {o : Option Raised}
    (hm : m ≠ .immediate)
    (hk : ∀ d, DstReady s i m d → (k d (s.withLen (lengthAfter s.len [s.pc.toNat + i]))).Follows
      (s.withLen (lengthAfter s.len [s.pc.toNat + i])) ([], o)) :
    ((dstParam i m s).andThen k).Follows s (thenFault (resolveTrace s i [(.dst, m)]) o) := by
  cases hp : paramFault s i m with
  | some f =>
    rw [thenFault_resolveTrace_of_fault hp, (dstParam_eq_raised hm).2 ⟨hp, rfl⟩, Phase.andThen_raised]
    exact Phase.follows_some.2 rfl
  | none =>
    obtain ⟨d, hd⟩ := (paramFault_eq_none.1 hp).exists_dstReady hm
    rw [thenFault_resolveTrace_dst hp, dstParam_eq_ok.2 ⟨hd, rfl⟩, Phase.andThen_ok]
    exact (hk d hd).of_withLen

/-! ### The instructions -/

theorem storeResult_follows (g : Word → Word → Word) (m1 m2 : Mode) {m3 : Mode} (hm : m3 ≠ .immediate) (s : State) :
    ∃ p, storeResult g m1 m2 m3 s = finish p ∧
      p.Follows s (thenFault (resolveTrace s 1 [(.src, m1), (.src, m2), (.dst, m3)]) none) := by
  refine ⟨_, rfl, ?_⟩
  simp only [resolveSSD, resolveSS, Phase.andThen_assoc, Phase.andThen_ok]
  refine follows_srcParam fun _ => ?_
  rw [← resolveTrace_withLen]
  refine follows_srcParam fun _ => ?_
  rw [← resolveTrace_withLen]
  refine follows_dstParam hm fun d hd => ?_
  rw [writeBack_of_lt (by exact hd.lt)]
  exact ⟨_, rfl, by simp⟩

/-- The fault of a jump under the condition `taken`: AddressFault on a negative target, when it is taken. -/
theorem condJump_follows {taken : Word → Bool} {m1 m2 : Mode} {s : State} {o : Option Raised}
    (ho : o = if taken (srcValue s 1 m1) = true ∧ (srcValue s 2 m2).toInt < 0 then
      some (.addressFault (srcValue s 2 m2).toInt) else none) :
    ∃ p, condJump taken m1 m2 s = finish p ∧
      p.Follows s (thenFault (resolveTrace s 1 [(.src, m1), (.src, m2)]) o) := by
  refine ⟨_, rfl, ?_⟩
  simp only [resolveSS, Phase.andThen_assoc, Phase.andThen_ok]
  refine follows_srcParam fun _ => ?_
  rw [← resolveTrace_withLen]
  refine follows_srcParam fun _ => ?_
  rw [resolveTrace_nil, thenFault_nil, ho, srcValue_withLen]
  split
  · next ht =>
    split
    · next hb => rw [if_pos ⟨ht, hb⟩]; exact Phase.follows_some.2 rfl
    · next hb => rw [if_neg (fun h => hb h.2)]; exact ⟨_, rfl, by simp⟩
  · next ht => rw [if_neg (fun h => ht h.1)]; exact ⟨_, rfl, by simp⟩

theorem receive_ends {d : Nat} {s : State} (h : d < s.cfg.memCap) : ∃ t, receive d s = .ok () t ∧ t.st ≠ .faulted := by
  refine ⟨_, receive_of_lt h, ?_⟩
  split
  · simp
  · split <;> simp

/-- R175: every instruction that a word decodes to resolves its parameters in order and then makes its jump check. -/
theorem exec_follows {i : Instr} (hw : i.WellFormed) (s : State) :
    ∃ p, exec i s = finish p ∧ p.Follows s (thenFault (resolveTrace s 1 i.paramList) (jumpFault s i)) := by
  cases i with
  | add m1 m2 m3 | mul m1 m2 m3 | lt m1 m2 m3 | eq m1 m2 m3 =>
    exact storeResult_follows _ m1 m2 (by simpa [Instr.WellFormed, Instr.wellFormed] using hw) s
  | inp m1 x2 x3 =>
    refine ⟨_, rfl, follows_dstParam (by simpa [Instr.WellFormed, Instr.wellFormed] using hw) fun d hd => ?_⟩
    exact receive_ends (by exact hd.lt)
  | out m1 x2 x3 =>
    refine ⟨_, rfl, follows_srcParam (ps := []) fun _ => ?_⟩
    exact ⟨_, rfl, send_st_ne_faulted _ _⟩
  | jt m1 m2 x3 =>
    rw [exec_jt]
    exact condJump_follows (by simp [jumpFault])
  | jf m1 m2 x3 =>
    rw [exec_jf]
    exact condJump_follows (by simp [jumpFault])
  | arb m1 x2 x3 =>
    refine ⟨_, rfl, follows_srcParam (ps := []) fun _ => ?_⟩
    exact ⟨_, rfl, by simp⟩
  | halt x1 x2 x3 => exact ⟨.ok () (s.enterHalted .haltInstruction), rfl, _, rfl, by simp⟩

/-! ### The step -/

/-- R175: a step follows `firstFault`: the fetch, the decoder, then the instruction. -/
theorem step_follows {s : State} (hs : s.st.steps = true) : ∃ p, step s = finish p ∧ p.Follows s (firstFault s) := by
  unfold firstFault
  split
  · next hc =>
    rw [step_of_fetchDecode_raised hs (fetchDecode_eq_raised.2 (.inl ⟨hc, rfl, rfl⟩))]
    exact ⟨.raised _ s, rfl, Phase.follows_some.2 rfl⟩
  · next hc =>
    have hpc : s.pc.toNat < s.cfg.memCap := by omega
    split
    · next e hd =>
      rw [step_of_decode_error hs hpc hd]
      exact ⟨.raised _ (s.grow s.pc.toNat), rfl, Phase.follows_some.2 rfl⟩
    · next i hd =>
      obtain ⟨p, hp, hf⟩ := exec_follows (decode_eq_ok_iff_encode.1 hd).1 (s.grow s.pc.toNat)
      rw [State.grow_eq_withLen, resolveTrace_withLen, jumpFault_withLen] at hf
      refine ⟨p, by rw [step_of_decode_ok hs hpc hd, hp], ?_⟩
      exact Phase.Follows.of_withLen (before := [s.pc.toNat]) hf

/-- Settles O9: `step_follows` read off at the two kinds of trace. -/
theorem stepTakesFirstFault : Obligations.StepTakesFirstFault := by
  intro s hs
  obtain ⟨p, hp, hf⟩ := step_follows hs
  constructor
  · intro cells f htr
    rw [htr, Phase.follows_some] at hf
    rw [hp, hf, finish_raised]
    rfl
  · intro hnone
    rw [← Prod.mk.eta (p := firstFault s), hnone, Phase.follows_none] at hf
    obtain ⟨t, rfl, ht⟩ := hf
    exact ⟨t, hp, ht⟩

end Sys2Proof.Machine
end

section
/-! A push by the producer and a step (spec/40_step_fsm.md rule R101): no phase but the receive reads the input buffer, so
each does the same on the state with one more word in it. -/

namespace Sys2Proof.Machine

/-- R28: the state after an enabled `H_PUSH_IN(v)`. -/
def State.pushed (s : State) (v : Word) : State := { s with inFifo := s.inFifo ++ [v] }

@[simp] theorem State.pushed_cfg (s : State) (v : Word) : (s.pushed v).cfg = s.cfg := rfl
@[simp] theorem State.pushed_rb (s : State) (v : Word) : (s.pushed v).rb = s.rb := rfl
@[simp] theorem State.pushed_st (s : State) (v : Word) : (s.pushed v).st = s.st := rfl

/-- The same answer, the state it leaves changed by `g`. -/
def Phase.mapState {α : Type} (g : State → State) : Phase α → Phase α
  | .ok w s => .ok w (g s)
  | .raised f s => .raised f (g s)

@[simp] theorem Phase.mapState_ok {α : Type} (g : State → State) (w : α) (s : State) :
    (Phase.ok w s).mapState g = .ok w (g s) := rfl

/-- A push before two phases is a push after them, when it is so for each. -/
theorem Phase.mapState_andThen {α β : Type} {g : State → State} {p : Phase α} {k : α → State → Phase β}
    (hk : ∀ w s, k w (g s) = (k w s).mapState g) : (p.mapState g).andThen k = (p.andThen k).mapState g := by
  cases p with
  | ok w s => exact hk w s
  | raised f s => rfl

/-! ### The phases that do not read the input buffer -/

theorem memRead_pushed (a : Int) (s : State) (v : Word) :
    memRead a (s.pushed v) = (memRead a s).mapState (State.pushed · v) := by
  simp only [memRead, State.pushed_cfg]
  split <;> rfl

theorem memWrite_pushed (a : Int) (w : Word) (s : State) (v : Word) :
    memWrite a w (s.pushed v) = (memWrite a w s).mapState (State.pushed · v) := by
  simp only [memWrite, State.pushed_cfg]
  split <;> rfl

theorem resolveSrc_pushed (m : Mode) (p : Word) (s : State) (v : Word) :
    resolveSrc m p (s.pushed v) = (resolveSrc m p s).mapState (State.pushed · v) := by
  cases m with
  | immediate => rfl
  | position | relative => exact memRead_pushed _ s v

theorem resolveDst_pushed (m : Mode) (p : Word) (s : State) (v : Word) :
    resolveDst m p (s.pushed v) = (resolveDst m p s).mapState (State.pushed · v) := by
  cases h : effAddr m p s.rb with
  | none =>
    rw [resolveDst, resolveDst, State.pushed_rb, h]
    rfl
  | some d =>
    rw [resolveDst_eq (by exact h), resolveDst_eq h, State.pushed_cfg]
    split_ifs <;> rfl

theorem srcParam_pushed (i : Nat) (m : Mode) (s : State) (v : Word) :
    srcParam i m (s.pushed v) = (srcParam i m s).mapState (State.pushed · v) :=
  (congrArg (Phase.andThen · _) (memRead_pushed _ s v)).trans (Phase.mapState_andThen fun p s => resolveSrc_pushed m p s v)

theorem dstParam_pushed (i : Nat) (m : Mode) (s : State) (v : Word) :
    dstParam i m (s.pushed v) = (dstParam i m s).mapState (State.pushed · v) :=
  (congrArg (Phase.andThen · _) (memRead_pushed _ s v)).trans (Phase.mapState_andThen fun p s => resolveDst_pushed m p s v)

theorem resolveSS_pushed (m1 m2 : Mode) (s : State) (v : Word) :
    resolveSS m1 m2 (s.pushed v) = (resolveSS m1 m2 s).mapState (State.pushed · v) := by
  rw [resolveSS, srcParam_pushed]
  refine Phase.mapState_andThen fun a s => ?_
  rw [srcParam_pushed]
  exact Phase.mapState_andThen fun b s => rfl

theorem resolveSSD_pushed (m1 m2 m3 : Mode) (s : State) (v : Word) :
    resolveSSD m1 m2 m3 (s.pushed v) = (resolveSSD m1 m2 m3 s).mapState (State.pushed · v) := by
  rw [resolveSSD, resolveSS_pushed]
  refine Phase.mapState_andThen fun ab s => ?_
  rw [dstParam_pushed]
  exact Phase.mapState_andThen fun d s => rfl

theorem writeBack_pushed (n : Nat) (d : Int) (w : Word) (s : State) (v : Word) :
    writeBack n d w (s.pushed v) = (writeBack n d w s).mapState (State.pushed · v) := by
  rw [writeBack, memWrite_pushed]
  exact Phase.mapState_andThen fun _ s => rfl

theorem send_pushed (a : Word) (s : State) (v : Word) : send a (s.pushed v) = (send a s).pushed v := by
  cases hc : s.outClosed with
  | true =>
    rw [send_of_closed hc, send_of_closed (by exact hc)]
    rfl
  | false =>
    cases hr : Depth.hasRoom s.cfg.outDepth s.outFifo with
    | true =>
      rw [send_of_room hc hr, send_of_room (by exact hc) (by exact hr)]
      rfl
    | false =>
      rw [send_of_full hc hr, send_of_full (by exact hc) (by exact hr)]
      rfl

theorem fetchDecode_pushed (s : State) (v : Word) :
    fetchDecode (s.pushed v) = (fetchDecode s).mapState (State.pushed · v) := by
  refine (congrArg (Phase.andThen · _) (memRead_pushed _ s v)).trans (Phase.mapState_andThen fun W s => ?_)
  unfold decodePhase
  split <;> rfl

/-- R120: the receive of a word takes the oldest one, whatever is pushed behind it. -/
theorem receive_pushed {d : Nat} {s : State} (hq : s.inFifo ≠ []) (v : Word) :
    receive d (s.pushed v) = (receive d s).mapState (State.pushed · v) := by
  obtain ⟨x, q, hxq⟩ := List.exists_cons_of_ne_nil hq
  have hpushed : (s.pushed v).inFifo = x :: (q ++ [v]) := by rw [State.pushed, hxq]; rfl
  have hrecv : receive d s = writeBack 2 d x { s with inFifo := q } := by rw [receive, hxq]
  rw [hrecv, ← writeBack_pushed, receive, hpushed]
  rfl

/-! ### The instructions and the step -/

theorem finish_pushed {p : Phase Unit} {t : State} (h : finish p = .next t) (v : Word) :
    finish (p.mapState (State.pushed · v)) = .next (t.pushed v) := by
  cases p <;> cases h <;> rfl

theorem storeResult_pushed {g : Word → Word → Word} {m1 m2 m3 : Mode} {s t : State} (v : Word)
    (h : storeResult g m1 m2 m3 s = .next t) : storeResult g m1 m2 m3 (s.pushed v) = .next (t.pushed v) := by
  rw [storeResult, resolveSSD_pushed, Phase.mapState_andThen fun r s => writeBack_pushed _ _ _ s v]
  exact finish_pushed h v

theorem condJump_pushed {taken : Word → Bool} {m1 m2 : Mode} {s t : State} (v : Word)
    (h : condJump taken m1 m2 s = .next t) : condJump taken m1 m2 (s.pushed v) = .next (t.pushed v) := by
  rw [condJump, resolveSS_pushed, Phase.mapState_andThen fun ab s => by split_ifs <;> rfl]
  exact finish_pushed h v

/-- R120, R101: an IN that does not wait takes the oldest word or raises; on an open port it cannot halt. -/
theorem execIn_pushed {m1 : Mode} {s t : State} (v : Word) (hc : s.inClosed = false) (h : execIn m1 s = .next t)
    (hst : t.st ≠ .awaitInput) : execIn m1 (s.pushed v) = .next (t.pushed v) := by
  rw [execIn] at h ⊢
  rw [dstParam_pushed]
  cases hd : dstParam 1 m1 s with
  | raised f u =>
    rw [hd] at h
    exact finish_pushed h v
  | ok d u =>
    rw [hd, Phase.andThen_ok] at h
    obtain ⟨-, rfl⟩ := dstParam_eq_ok.1 hd
    have hq : s.inFifo ≠ [] := by
      intro hq
      rw [receive_of_open (by exact hq) (by exact hc), finish_ok] at h
      cases h
      exact hst rfl
    rw [Phase.mapState_ok, Phase.andThen_ok, receive_pushed (by exact hq)]
    exact finish_pushed h v

theorem exec_pushed {i : Instr} {s t : State} (v : Word) (hc : s.inClosed = false) (h : exec i s = .next t)
    (hst : t.st ≠ .awaitInput) : exec i (s.pushed v) = .next (t.pushed v) := by
  cases i with
  | add | mul | lt | eq => exact storeResult_pushed v h
  | inp m1 x2 x3 => exact execIn_pushed v hc h hst
  | out m1 x2 x3 =>
    rw [exec_out, execOut, srcParam_pushed]
    refine (congrArg finish (Phase.mapState_andThen fun a s => ?_)).trans (finish_pushed h v)
    exact congrArg (Phase.ok ()) (send_pushed a s v)
  | jt m1 m2 x3 =>
    rw [exec_jt] at h ⊢
    exact condJump_pushed v h
  | jf m1 m2 x3 =>
    rw [exec_jf] at h ⊢
    exact condJump_pushed v h
  | arb m1 x2 x3 =>
    rw [exec_arb, execArb, srcParam_pushed, Phase.mapState_andThen fun a s => rfl]
    exact finish_pushed h v
  | halt => cases h; rfl

/-- Settles O50: FETCH and DECODE do not read the input buffer, and `exec_pushed` says it of the instruction. -/
theorem pushCommutesWithStep : Obligations.PushCommutesWithStep := by
  intro s t v hc h hst
  change step (s.pushed v) = .next (t.pushed v)
  unfold step at h ⊢
  rw [State.pushed_st, fetchDecode_pushed]
  split at h
  · next hs =>
    rw [if_pos hs]
    cases hf : fetchDecode s with
    | raised f u =>
      rw [hf] at h
      cases h
      rfl
    | ok i u =>
      rw [hf] at h
      obtain ⟨-, -, rfl⟩ := fetchDecode_eq_ok.1 hf
      exact exec_pushed v hc h hst
  · next hs =>
    cases h
    rw [if_neg hs]

end Sys2Proof.Machine
end

section
/-! The host's interface (spec/10_state.md section 3): each operation where it is enabled and where it is refused, the status
readout, and loading and starting a program (spec/70_reset_and_hazards.md section 1). -/

namespace Sys2Proof.Machine

/-- Settles O51: `H_RESET` is always enabled. -/
theorem resetGivesTheResetTable : Obligations.ResetGivesTheResetTable := by
  intro s
  exact ⟨State.resetWith s.cfg, hostOp_of_enabled rfl, rfl, rfl, rfl, rfl, rfl, fun _ => rfl, rfl, rfl, rfl, rfl, rfl, rfl,
    rfl, rfl, rfl, rfl, rfl⟩

/-- Settles O53. -/
theorem controllerOperations : Obligations.ControllerOperations := by
  intro s v
  refine ⟨fun hst hlen => ?_, fun h => ?_, fun hst => ?_, fun hst => ?_⟩
  · refine ⟨s.store s.len v, hostOp_load v hst hlen, ?_, ?_, fun b hb => ?_⟩
    · rw [State.store, Nat.max_eq_right (Nat.le_succ _)]
    · rw [State.peek_store, if_pos rfl]
    · rw [State.peek_store, if_neg hb]
  · refine hostOp_of_disabled ?_
    rcases h with h | h
    · simp [HostOp.enabled, h]
    · simp [HostOp.enabled, Nat.not_lt.2 h]
  · exact hostOp_of_enabled (by simp [HostOp.enabled, hst])
  · exact hostOp_of_disabled (by simp [HostOp.enabled, hst])

/-- Settles O54. -/
theorem portOperations : Obligations.PortOperations := by
  intro s v
  refine ⟨fun hc hroom => hostOp_pushIn v hc (Depth.hasRoom_eq_true.2 hroom), fun h => hostOp_of_disabled ?_,
    fun h => hostOp_of_enabled ?_, fun h => hostOp_of_disabled ?_, fun x q hc hq => ?_, fun h => hostOp_of_disabled ?_,
    fun h => hostOp_of_enabled ?_, fun h => hostOp_of_disabled ?_⟩
  · rcases h with h | h
    · simp [HostOp.enabled, h]
    · simp [HostOp.enabled, Depth.hasRoom_eq_false.2 h]
  · simp [HostOp.enabled, h]
  · simp [HostOp.enabled, h]
  · rw [hostOp_of_enabled (by simp [HostOp.enabled, hc, hq]), HostOp.effect, HostOp.reply, hq]
    rfl
  · rcases h with h | h
    · simp [HostOp.enabled, h]
    · simp [HostOp.enabled, h]
  · simp [HostOp.enabled, h]
  · simp [HostOp.enabled, h]

/-! ### The readout -/

theorem hostOp_readMem (s : State) (a : Int) : hostOp (.readMem a) s =
    if (s.st = .idle ∨ s.st = .halted ∨ s.st = .faulted) ∧ 0 ≤ a ∧ a < (s.len : Int) then (s, .value (s.peek a.toNat))
    else (s, .refused) := by
  split
  · next h =>
    rw [← ExecState.steps_eq_false] at h
    exact hostOp_of_enabled (by simp [HostOp.enabled, h])
  · next h =>
    rw [← ExecState.steps_eq_false] at h
    refine hostOp_of_disabled ?_
    rw [Bool.eq_false_iff]
    intro hen
    simp only [HostOp.enabled, Bool.and_eq_true, Bool.not_eq_true', decide_eq_true_eq] at hen
    obtain ⟨⟨hst, h0⟩, hlen⟩ := hen
    exact h ⟨hst, h0, hlen⟩

/-- The number whose binary digits are `bits`, the lowest first, has them. -/
theorem testBit_foldr_bit (bits : List Bool) (k : Nat) : (bits.foldr Nat.bit 0).testBit k = bits.getD k false := by
  induction bits generalizing k with
  | nil => simp
  | cons b bits ih =>
    cases k with
    | zero => simp
    | succ k => rw [List.foldr_cons, Nat.testBit_bit_succ, ih, List.getD_cons_succ]

/-- R18: the layout of `FLAGS`, bit 0 first. -/
def State.flagBits (s : State) : List Bool :=
  [s.inClosed, s.outClosed, s.outEos, s.outDrop, s.needInput, s.inFifo.isEmpty, s.outFifo.isEmpty]

theorem State.flags_eq (s : State) : s.flags = BitVec.ofNat 64 (s.flagBits.foldr Nat.bit 0) := by
  simp only [State.flags, State.flagBits, List.foldr_cons, List.foldr_nil, Nat.bit_val]
  congr 1
  omega

theorem State.getLsbD_flags (s : State) (k : Nat) : s.flags.getLsbD k = s.flagBits.getD k false := by
  rw [State.flags_eq, BitVec.getLsbD_ofNat, testBit_foldr_bit]
  by_cases hk : k < 64
  · simp [hk]
  · rw [List.getD_eq_default _ _ (by simp [State.flagBits]; omega), Bool.and_false]

/-- R33: `Value(n)` is the reply an enabled pop gives. -/
theorem valueReady_eq_some {s : State} {v : Word} :
    s.valueReady = some v ↔ HostOp.enabled .popOut s = true ∧ (hostOp .popOut s).2 = .value v := by
  cases hc : s.outClosed with
  | true => simp [State.valueReady, HostOp.enabled, hc]
  | false =>
    cases hq : s.outFifo with
    | nil => simp [State.valueReady, HostOp.enabled, hc, hq]
    | cons x q => simp [State.valueReady, hostOp, HostOp.enabled, HostOp.reply, hc, hq]

theorem ExecState.code_eq_iff (x : ExecState) :
    (x.code = 0 ↔ x = .idle) ∧ (x.code = 1 ↔ x = .running) ∧ (x.code = 2 ↔ x = .awaitInput)
      ∧ (x.code = 3 ↔ x = .awaitOutput) ∧ (x.code = 4 ↔ x = .halted) ∧ (x.code = 5 ↔ x = .faulted) := by
  cases x <;> simp [ExecState.code]

theorem HaltCause.code_eq_iff (x : HaltCause) :
    (x.code = 0 ↔ x = .none) ∧ (x.code = 1 ↔ x = .haltInstruction) ∧ (x.code = 2 ↔ x = .inputClosed) := by
  cases x <;> simp [HaltCause.code]

theorem FaultCause.code_eq_iff (x : FaultCause) :
    (x.code = 0 ↔ x = .none) ∧ (x.code = 1 ↔ x = .decodeFault) ∧ (x.code = 2 ↔ x = .addressFault)
      ∧ (x.code = 3 ↔ x = .capacityFault) := by
  cases x <;> simp [FaultCause.code]

/-- Settles O55: the read, the bits of `FLAGS`, the three codes and `Value(n)`, each by its own lemma. -/
theorem hostReadout : Obligations.HostReadout := by
  intro s
  refine ⟨hostOp_readMem s, ?_, ⟨rfl, rfl, rfl, rfl, rfl, rfl⟩, s.st.code_eq_iff, s.hcause.code_eq_iff,
    s.fcause.code_eq_iff, fun v => valueReady_eq_some, decide_eq_true_iff⟩
  refine ⟨s.getLsbD_flags 0, s.getLsbD_flags 1, s.getLsbD_flags 2, s.getLsbD_flags 3, s.getLsbD_flags 4,
    s.getLsbD_flags 5, s.getLsbD_flags 6, fun k hk => ?_⟩
  rw [State.getLsbD_flags, List.getD_eq_default _ _ (by simpa [State.flagBits] using hk)]

/-! ### Load and start (R203 to R205) -/

theorem loadImage_cons (w : Word) (ws : List Word) (s : State) :
    loadImage (w :: ws) s = loadImage ws (hostOp (.load w) s).1 := rfl

theorem pushInputs_cons (w : Word) (ws : List Word) (s : State) :
    pushInputs (w :: ws) s = pushInputs ws (hostOp (.pushIn w) s).1 := rfl

/-- R203: loading an image that fits, in IDLE: the words stand from address `LEN` on, and nothing else changes. -/
theorem loadImage_eq {ws : List Word} {s : State} (hst : s.st = .idle) (hwf : Memory.wf s.mem)
    (hfit : s.len + ws.length ≤ s.cfg.memCap) :
    ∃ m, loadImage ws s = { s with mem := m, len := s.len + ws.length } ∧ Memory.wf m ∧
      ∀ a, Memory.get m a =
        if s.len ≤ a ∧ a < s.len + ws.length then ws.getD (a - s.len) 0 else Memory.get s.mem a := by
  induction ws generalizing s with
  | nil => exact ⟨s.mem, rfl, hwf, fun a => by rw [if_neg (by simp)]⟩
  | cons w ws ih =>
    rw [List.length_cons] at hfit
    have hlen : (s.store s.len w).len = s.len + 1 := Nat.max_eq_right (Nat.le_succ _)
    obtain ⟨m, heq, hm, hget⟩ := ih (s := s.store s.len w) hst (State.store_wf hwf _ _)
      (by rw [hlen, State.store_cfg]; omega)
    refine ⟨m, ?_, hm, fun a => ?_⟩
    · rw [loadImage_cons, hostOp_load w hst (by omega), heq, hlen, List.length_cons, Nat.add_right_comm, Nat.add_assoc]
      rfl
    · rw [hget, hlen, State.store_mem, Memory.get_set, List.length_cons]
      rcases Nat.lt_trichotomy a s.len with h | rfl | h
      · rw [if_neg (by omega), if_neg (by omega), if_neg (by omega)]
      · rw [if_neg (by omega), if_pos rfl, if_pos (by omega)]
        simp
      · obtain ⟨k, hk⟩ : ∃ k, a - s.len = k + 1 := ⟨a - s.len - 1, by omega⟩
        rw [hk, List.getD_cons_succ, show a - (s.len + 1) = k by omega, if_neg (show a ≠ s.len by omega)]
        by_cases hin : a < s.len + (ws.length + 1)
        · rw [if_pos (by omega), if_pos (by omega)]
        · rw [if_neg (by omega), if_neg (by omega)]

/-- R203: loaded after reset, an image is the memory that `Memory.ofImage` writes down. -/
theorem loadImage_resetWith {c : Config} {P : List Word} (h : P.length ≤ c.memCap) :
    loadImage P (State.resetWith c) = { State.resetWith c with mem := Memory.ofImage 0 P, len := P.length } := by
  obtain ⟨m, heq, hm, hget⟩ := loadImage_eq (ws := P) (s := State.resetWith c) rfl Memory.wf_nil (by simpa using h)
  have hmem : m = Memory.ofImage 0 P := by
    refine Memory.ext_of_wf hm (Memory.wf_ofImage P 0) fun a => ?_
    rw [hget, Memory.get_ofImage]
    by_cases ha : a < P.length
    · simp [ha]
    · simp [ha]
  rw [heq, hmem, State.resetWith_len, Nat.zero_add]

theorem Depth.hasRoom_of_holds_append {d : Depth} {q : Fifo} {w : Word} {ws : List Word}
    (h : Depth.holds d (q ++ w :: ws) = true) : Depth.hasRoom d q = true := by
  cases d with
  | inf => rfl
  | finite n => simp [Depth.holds, Depth.hasRoom] at h ⊢; omega

/-- R28: supplying input that fits on an open port appends it. -/
theorem pushInputs_eq {ws : List Word} {s : State} (hc : s.inClosed = false)
    (hfit : Depth.holds s.cfg.inDepth (s.inFifo ++ ws) = true) :
    pushInputs ws s = { s with inFifo := s.inFifo ++ ws } := by
  induction ws generalizing s with
  | nil => simp [pushInputs]
  | cons w ws ih =>
    rw [pushInputs_cons, hostOp_pushIn w hc (Depth.hasRoom_of_holds_append hfit)]
    have hfit' : Depth.holds s.cfg.inDepth ((s.inFifo ++ [w]) ++ ws) = true := by simpa using hfit
    rw [ih (s := { s with inFifo := s.inFifo ++ [w] }) hc hfit']
    simp

/-- Settles O52: load, then push, each by its equation; the start and the close are enabled. -/
theorem loadAndStartGiveLaunchState : Obligations.LoadAndStartGiveLaunchState := by
  intro c P I hP hI
  rw [loadImage_resetWith hP, pushInputs_eq rfl (by simpa using hI)]
  exact ⟨rfl, rfl⟩

end Sys2Proof.Machine
end

section
/-! Several cores (spec/60_exceptions.md rules R190 to R194): what a move leaves of each core, and the two moves of a link. -/

namespace Sys2Proof.Machine

theorem System.updateCore_same {y : System} {i : Nat} {s : State} (f : State → State) (h : y.cores[i]? = some s) :
    (y.updateCore i f).cores[i]? = some (f s) := by
  simp [System.updateCore, h]

theorem System.updateCore_other {y : System} {i j : Nat} (f : State → State) (h : j ≠ i) :
    (y.updateCore i f).cores[j]? = y.cores[j]? := by
  simp [System.updateCore, h.symm]

/-- Settles O57: both moves are `updateCore i`. -/
theorem coresShareNothing : Obligations.CoresShareNothing :=
  fun _ _ _ _ hij => ⟨System.updateCore_other _ hij, System.updateCore_other _ hij, rfl, rfl⟩

/-! ### Transfer -/

/-- R191: when a link has a word to move. -/
theorem System.transferWord_eq {y : System} {l : Link} {a b : State} (ha : y.cores[l.src]? = some a)
    (hb : y.cores[l.dst]? = some b) :
    y.transferWord l =
      if a.outClosed = false ∧ b.inClosed = false ∧ Depth.hasRoom b.cfg.inDepth b.inFifo = true then a.outFifo.head?
      else none := by
  rw [System.transferWord, ha, hb]
  cases hq : a.outFifo with
  | nil => simp [hq]
  | cons v q => simp [HostOp.enabled, hq]

theorem System.move_transfer_some {y : System} {k : Nat} {l : Link} {v : Word} (hl : y.links[k]? = some l)
    (hw : y.transferWord l = some v) : y.move (.transfer k) =
      (y.updateCore l.src (HostOp.effect .popOut)).updateCore l.dst (HostOp.effect (.pushIn v)) := by
  simp only [System.move, hl, hw]

theorem System.move_transfer_none {y : System} {k : Nat} {l : Link} (hl : y.links[k]? = some l)
    (hw : y.transferWord l = none) : y.move (.transfer k) = y := by
  simp only [System.move, hl, hw]

/-- Settles O58: where there is a word to move, the transfer is two updates of cores; elsewhere it is none. -/
theorem transferMovesOneWord : Obligations.TransferMovesOneWord := by
  intro y k l a b hl ha hb
  refine ⟨fun v q hq hout hin hroom => ?_, fun h => ?_⟩
  · have hword : y.transferWord l = some v := by
      rw [System.transferWord_eq ha hb, if_pos ⟨hout, hin, hroom⟩, hq, List.head?_cons]
    have hpop : HostOp.effect .popOut a = { a with outFifo := q } := by rw [HostOp.effect, hq, List.tail_cons]
    rw [System.move_transfer_some hl hword]
    refine ⟨fun hne => ⟨?_, ?_⟩, fun heq => ?_, fun j hj hj' => ?_⟩
    · rw [System.updateCore_other _ hne, System.updateCore_same _ ha, hpop]
    · exact System.updateCore_same _ ((System.updateCore_other _ hne.symm).trans hb)
    · rw [← heq, System.updateCore_same _ (System.updateCore_same _ ha), hpop]
      rfl
    · rw [System.updateCore_other _ hj', System.updateCore_other _ hj]
  · have hword : y.transferWord l = none := by
      rw [System.transferWord_eq ha hb]
      rcases h with h | h | h | h <;> simp [h]
    exact System.move_transfer_none hl hword

/-! ### Close -/

theorem System.closeEnabled_eq {y : System} {l : Link} {a b : State} (ha : y.cores[l.src]? = some a)
    (hb : y.cores[l.dst]? = some b) : y.closeEnabled l = (a.finished && !b.inClosed) := by
  rw [System.closeEnabled, ha, hb, State.finished]

theorem System.move_close {y : System} {k : Nat} {l : Link} (hl : y.links[k]? = some l) :
    y.move (.close k) = if y.closeEnabled l then y.updateCore l.dst (HostOp.effect .closeIn) else y := by
  simp only [System.move, hl]

/-- Settles O59: the move is enabled exactly when the source is finished, which the invariant says is HALTED and drained. -/
theorem linkClosesOnlyAfterHalt : Obligations.LinkClosesOnlyAfterHalt := by
  intro y k l a b hl ha hb hinv
  have hfin := finishedOnlyWhenHaltedAndDrained a hinv
  rw [System.move_close hl, System.closeEnabled_eq ha hb]
  refine ⟨fun hst hq hin => ?_, fun h => ?_⟩
  · rw [hfin.2 ⟨hst, hq⟩, hin]
    exact ⟨System.updateCore_same _ hb, fun j hj => System.updateCore_other _ hj⟩
  · refine if_neg fun hen => ?_
    simp only [Bool.and_eq_true, Bool.not_eq_true', hfin] at hen
    obtain ⟨⟨hst, hq⟩, hin⟩ := hen
    rcases h with h | h | h
    · exact h hst
    · exact h hq
    · simp [hin] at h

end Sys2Proof.Machine
end
